-- ==== Sys2Proof/Word.lean ====
section
/-! DEFINITION. The widths the spec names (00_scope.md R6: every value is an unsigned number of a fixed width). -/

namespace Sys2Proof

/-- `byte` (R6): 8 bits. -/
abbrev Byte := BitVec 8

/-- `u32` (R6): an accumulator word, a message word, a header word. -/
abbrev Word := BitVec 32

/-- `u64` (R6): the width of `total_length`. -/
abbrev Count := BitVec 64

/-- A context index as a header carries it (30_encoding.md R72, R74): 4 bits, unsigned, not scaled. -/
abbrev CtxIndex := BitVec 4

end Sys2Proof
end

