-- ==== Sys2Proof/Machine/Bytes.lean ====
section
/-! DEFINITION. Byte sequences and little-endian transcoding (00_scope.md R8, R9; 20_memory.md R51). -/

namespace Sys2Proof

/-- `le(n, v)` (R9): the n-byte sequence whose byte i is `v[8*i+7 : 8*i]`. -/
def le {w : Nat} (n : Nat) (v : BitVec w) : List Byte :=
  (List.range n).map fun i => v.extractLsb' (8 * i) 8

/-- `sum over i of s[i] * 2^(8*i)` (R9), an exact number. -/
def unleNat : List Byte → Nat
  | [] => 0
  | b :: s => b.toNat + 256 * unleNat s

/-- `unle(s)` (R9) as a value of width `w`; every use has `w = 8 * len(s)`, so nothing is cut off. -/
def unle (w : Nat) (s : List Byte) : BitVec w :=
  BitVec.ofNat w (unleNat s)

/-- `s[i..j]` (R8): the bytes of indices i to j-1. -/
def slice (s : List Byte) (i j : Nat) : List Byte :=
  (s.drop i).take (j - i)

end Sys2Proof
end

