-- ==== Sys2Proof/Syntax.lean ====
section
/-! DEFINITION. The six commands (30_encoding.md R73), one constructor per row of the opcode table. The operands are
the header's fields and the payload bytes in stream order (R74). -/

namespace Sys2Proof

/-- A command, as a legal header and its payload spell it. A context index may be at or above NCTX here: that is
found out when the command is executed (R82: such an index assembles and fails at run time). -/
inductive Instr where
  /-- INIT c [, data] (40_construct_absorb.md R100). -/
  | init (c : CtxIndex) (data : List Byte)
  /-- ABSORB c, data (40_construct_absorb.md R101). -/
  | absorb (c : CtxIndex) (data : List Byte)
  /-- FINALIZE c (41_finalize.md R120). -/
  | finalize (c : CtxIndex)
  /-- EXPORT c (42_export_import_copy.md R130). -/
  | exportState (c : CtxIndex)
  /-- IMPORT c, blob (42_export_import_copy.md R132); any payload length decodes. -/
  | importState (c : CtxIndex) (blob : List Byte)
  /-- COPY d, s (42_export_import_copy.md R138): CTX = d, SRC = s. -/
  | copy (d s : CtxIndex)
  deriving DecidableEq, Repr

/-- The payload bytes a command carries (R73's payload column). -/
def Instr.payload : Instr → List Byte
  | .init _ data => data
  | .absorb _ data => data
  | .finalize _ => []
  | .exportState _ => []
  | .importState _ blob => blob
  | .copy _ _ => []

/-- The CTX field: the context a command operates on or writes (R72). -/
def Instr.ctx : Instr → CtxIndex
  | .init c _ => c
  | .absorb c _ => c
  | .finalize c => c
  | .exportState c => c
  | .importState c _ => c
  | .copy d _ => d

/-- The SRC field: the source context of COPY, 0 in every other command (R72). -/
def Instr.src : Instr → CtxIndex
  | .init _ _ => 0
  | .absorb _ _ => 0
  | .finalize _ => 0
  | .exportState _ => 0
  | .importState _ _ => 0
  | .copy _ s => s

end Sys2Proof
end

