-- ==== Sys2Proof/WellFormed.lean ====
section
/-! DEFINITION. Which commands a frame can carry (30_encoding.md R71, R72) and which of them are legal in a block of
`n` contexts (R75). -/

namespace Sys2Proof

/-- A command fits a frame when its payload length fits the 16-bit LEN field (R72, R80). The context indices fit
their fields by their type. -/
def Instr.wellFormed (i : Instr) : Bool :=
  match i with
  | .init _ data => decide (data.length ≤ 65535)
  | .absorb _ data => decide (data.length ≤ 65535)
  | .finalize _ => true
  | .exportState _ => true
  | .importState _ blob => decide (blob.length ≤ 65535)
  | .copy _ _ => true

/-- The part of R75 that depends on NCTX: CTX < NCTX in every command, and SRC < NCTX in COPY. -/
def Instr.indicesValid (nctx : Nat) (i : Instr) : Bool :=
  match i with
  | .init c _ => decide (c.toNat < nctx)
  | .absorb c _ => decide (c.toNat < nctx)
  | .finalize c => decide (c.toNat < nctx)
  | .exportState c => decide (c.toNat < nctx)
  | .importState c _ => decide (c.toNat < nctx)
  | .copy d s => decide (d.toNat < nctx) && decide (s.toNat < nctx)

end Sys2Proof
end

