-- ==== Sys2Proof/Decode.lean ====
section
/-! DEFINITION. Command frames: taking one from the command stream, decoding it, and the encoder
(30_encoding.md R71 to R76, R80, R84). -/

namespace Sys2Proof

/-! ### Frames (R71, R80) -/

/-- A whole command frame: the header word H and `LEN` payload bytes (R71). -/
structure Frame where
  header  : Word
  payload : List Byte
  deriving DecidableEq, Repr

/-- `OPC` = H[7:0] (R72). -/
def headerOpc (h : Word) : Byte := h.extractLsb' 0 8

/-- `CTX` = H[11:8] (R72). -/
def headerCtx (h : Word) : CtxIndex := h.extractLsb' 8 4

/-- `SRC` = H[15:12] (R72). -/
def headerSrc (h : Word) : CtxIndex := h.extractLsb' 12 4

/-- `LEN` = H[31:16] (R72), an unsigned byte count, not scaled (R74). -/
def headerLen (h : Word) : Nat := (h.extractLsb' 16 16).toNat

/-- The word with the given fields (R72). -/
def headerWord (opc : Byte) (ctx src : CtxIndex) (len : BitVec 16) : Word :=
  len ++ src ++ ctx ++ opc

/-- Take one frame from the front of the stream (R80, R84): 4 bytes, then LEN bytes, whatever the opcode. `none`
where the frame is not whole yet: the engine waits (70_reset_and_hazards.md R214). -/
def takeFrame (bs : List Byte) : Option (Frame × List Byte) :=
  if bs.length < 4 then none
  else
    let h : Word := unle 32 (bs.take 4)
    let rest := bs.drop 4
    if rest.length < headerLen h then none
    else some ({ header := h, payload := rest.take (headerLen h) }, rest.drop (headerLen h))

/-! ### Opcodes (R73) -/

def opcInit : Byte := 0x01#8
def opcAbsorb : Byte := 0x02#8
def opcFinalize : Byte := 0x03#8
def opcExport : Byte := 0x04#8
def opcImport : Byte := 0x05#8
def opcCopy : Byte := 0x06#8

/-- The `OPC` byte of each command (R73). -/
def Instr.opcode : Instr → Byte
  | .init _ _ => opcInit
  | .absorb _ _ => opcAbsorb
  | .finalize _ => opcFinalize
  | .exportState _ => opcExport
  | .importState _ _ => opcImport
  | .copy _ _ => opcCopy

/-- Why a frame spells no command, whatever NCTX is (R75, R76). All of them get the same response. -/
inductive Illegal where
  /-- `OPC` is not 0x01 to 0x06. -/
  | unknownOpcode
  /-- `SRC` is not 0 in a command other than COPY. -/
  | sourceNotZero
  /-- `LEN` is not 0 in FINALIZE, EXPORT or COPY. -/
  | payloadNotEmpty
  deriving DecidableEq, Repr

/-- A command without SRC operand and with a payload: INIT, ABSORB, IMPORT (R75). -/
def decodeWithPayload (f : Frame) (mk : CtxIndex → List Byte → Instr) : Except Illegal Instr :=
  if headerSrc f.header ≠ 0 then .error .sourceNotZero
  else .ok (mk (headerCtx f.header) f.payload)

/-- A command without SRC operand and without payload: FINALIZE, EXPORT (R75). -/
def decodeBare (f : Frame) (mk : CtxIndex → Instr) : Except Illegal Instr :=
  if headerSrc f.header ≠ 0 then .error .sourceNotZero
  else if headerLen f.header ≠ 0 then .error .payloadNotEmpty
  else .ok (mk (headerCtx f.header))

/-- COPY: two context indices and no payload (R75). -/
def decodeCopy (f : Frame) : Except Illegal Instr :=
  if headerLen f.header ≠ 0 then .error .payloadNotEmpty
  else .ok (.copy (headerCtx f.header) (headerSrc f.header))

/-- Decode a whole frame (R84), total on every header (R76). The tests `CTX >= NCTX` and, for COPY, `SRC >= NCTX`
need the number of contexts and are made where the command is executed (`onContext`, `execCopy`); all illegal tests
give the same response, and their order cannot be observed (R84). Log entry 2. -/
def decodeFrame (f : Frame) : Except Illegal Instr :=
  let opc := headerOpc f.header
  if opc = opcInit then decodeWithPayload f .init
  else if opc = opcAbsorb then decodeWithPayload f .absorb
  else if opc = opcFinalize then decodeBare f .finalize
  else if opc = opcExport then decodeBare f .exportState
  else if opc = opcImport then decodeWithPayload f .importState
  else if opc = opcCopy then decodeCopy f
  else .error .unknownOpcode

/-- What stands at the front of the command stream (R84). -/
inductive Fetched where
  /-- No whole frame yet (70_reset_and_hazards.md R214). -/
  | waiting
  /-- A whole frame that spells no command: why, its `OPC` byte as received, and the stream after it (R76). -/
  | illegal (why : Illegal) (opc : Byte) (rest : List Byte)
  /-- A command and the stream after its frame. -/
  | command (i : Instr) (rest : List Byte)
  deriving DecidableEq, Repr

/-- Take and decode the next frame (R84), total on any bytes. -/
def nextCommand (bs : List Byte) : Fetched :=
  match takeFrame bs with
  | none => .waiting
  | some (f, rest) =>
    match decodeFrame f with
    | .ok i => .command i rest
    | .error why => .illegal why (headerOpc f.header) rest

/-! ### The encoder (R71 to R73) -/

/-- The header word of a command (R72). -/
def Instr.header (i : Instr) : Word :=
  headerWord i.opcode i.ctx i.src (BitVec.ofNat 16 i.payload.length)

/-- The frame of a command: `le(4, H) ++ payload` (R71). -/
def encode (i : Instr) : List Byte :=
  le 4 i.header ++ i.payload

/-! ### Words as the opcode table numbers them -/

/-- The frame whose bits are `w`, numbered as the opcode table numbers them: byte k of the stream is bits 8k+7 to 8k
(R71: the header travels least significant byte first), every bit from `nbits` on 0. The frame is the header and as
many payload bytes as its LEN field says. -/
def tableFrame (nbits w : Nat) : List Byte :=
  let v := w % 2 ^ nbits
  let h : Word := BitVec.ofNat 32 v
  le 4 h ++ (List.range (headerLen h)).map fun k => BitVec.ofNat 8 (v >>> (32 + 8 * k))

/-- The command this decoder reads from a frame whose bits are `w`; `none` where it refuses the frame. -/
def decodeTableWord (nbits w : Nat) : Option Instr :=
  match nextCommand (tableFrame nbits w) with
  | .command i _ => some i
  | .illegal _ _ _ => none
  | .waiting => none

end Sys2Proof
end

