-- ==== Sys2Proof/Config.lean ====
section
/-! DEFINITION. What one build of the block fixes and the spec leaves open: the number of context slots (00_scope.md R5,
92_eei_decisions.md D4) and how much its two queues hold (93_implementation_defined.md U16). -/

namespace Sys2Proof.Config

/-- How many context slots the block holds beyond the first. The spec leaves `NCTX` OPEN with 1 <= NCTX <= 16
(00_scope.md R5), so this constant has no body: nothing proved with it rests on a value. DESIGN CHOICE, safe: log
entry 1. -/
opaque moreContexts : Fin 16

/-- How many bytes of whole frames not yet executed the block holds before it stops taking command bytes; any finite
number (93_implementation_defined.md U16), so no body. DESIGN CHOICE, safe: log entry 11. -/
opaque cmdQueueDepth : Nat

/-- With how many response bytes still to be taken the block can begin another response; any finite number
(93_implementation_defined.md U16), so no body. DESIGN CHOICE, safe: log entry 11. -/
opaque rspQueueDepth : Nat

end Sys2Proof.Config
end

