-- ==== Sys2Proof/Machine/Build.lean ====
section
/-! DEFINITION. The build parameters and fixed sizes of the block (00_scope.md R4, R5). -/

namespace Sys2Proof.Machine

/-- `NCTX` (R5, D4): the number of context slots of this block, 1 to 16; left open (log entry 1). -/
def nctx : Nat := Config.moreContexts.val + 1

/-- How many bytes of whole frames wait for execution before `cmd_ready` stays 0; left open (log entry 11). -/
def cmdQueueDepth : Nat := Config.cmdQueueDepth

/-- With how many untaken response bytes another response can begin; left open (log entry 11). -/
def rspQueueDepth : Nat := Config.rspQueueDepth

/-- The size of the fixed state-blob record (R4, 20_memory.md R57). -/
def blobSize : Nat := 89

/-- The offset of the `buffer_length` byte in the blob (20_memory.md R57). -/
def blobLengthOffset : Nat := 88

/-- `FILL` (R5, D12): the byte EXPORT writes past `buffer_length`. -/
def fill : Byte := 0x00#8

end Sys2Proof.Machine
end

