-- ==== Sys2Proof/Machine/State.lean ====
section
/-! DEFINITION. The architectural state (10_state.md), the two byte streams it is reached through (30_encoding.md
R70), and the reset state (10_state.md R34, 70_reset_and_hazards.md R210). -/

namespace Sys2Proof.Machine

/-- `accumulator`: the four 32-bit words A, B, C, D (10_state.md R22). Also the type of the working registers of one
call of Compress (43_compress_core.md R160), which are no state. -/
structure Accumulator where
  a : Word
  b : Word
  c : Word
  d : Word
  deriving DecidableEq, Repr

/-- One HashState (10_state.md R21). `buffer_length` is the length of `buffer` (R24) and has no second home: log
entry 3. -/
structure HashState where
  /-- A, B, C, D (R22). -/
  acc         : Accumulator
  /-- `total_length`: bytes absorbed so far, modulo 2^64 (R23, R27). -/
  totalLength : Count
  /-- `buffer`: the 0 to 63 bytes not yet forming a block (R24). -/
  buffer      : List Byte
  deriving DecidableEq, Repr

/-- `buffer_length` (R25). -/
def HashState.bufferLength (S : HashState) : Nat := S.buffer.length

/-- The MD5 initial constants (R22). -/
def Accumulator.initial : Accumulator :=
  { a := 0x67452301#32, b := 0xefcdab89#32, c := 0x98badcfe#32, d := 0x10325476#32 }

/-- The fresh HashState of Construct with no initial bytes (R34, 40_construct_absorb.md R100). -/
def HashState.fresh : HashState :=
  { acc := Accumulator.initial, totalLength := 0#64, buffer := [] }

/-- The state of the block. -/
structure State where
  /-- The context file `CTX[0 .. NCTX-1]` (R20); its length is NCTX. -/
  ctxs     : List HashState
  /-- Command-stream bytes that have moved into the engine and belong to no executed frame yet, oldest first; the
  first byte is always the first byte of a frame (30_encoding.md R70, R86, 10_state.md R35 (d)). -/
  cmd      : List Byte
  /-- Response-stream bytes emitted and not yet taken by the host, oldest first (30_encoding.md R70, R77). -/
  rsp      : List Byte
  /-- `rsp_valid` as the engine holds it: once 1 it stays 1 until the offered byte, the first of `rsp`, has moved
  (30_encoding.md R86). Executing a command does not look at it. -/
  rspValid : Bool
  deriving DecidableEq, Repr

/-- NCTX of the block whose state this is. It is not a register: no command reads it (10_state.md R37). -/
def State.contexts (s : State) : Nat := s.ctxs.length

/-- The engine has no machine fault: an error is the outcome of one command, reported in its response, after which
the next command runs normally (60_exceptions.md R186, R187). So there is no constructor, and nothing raises one. -/
inductive Fault where
  deriving DecidableEq, Repr

/-- Why the model gives no meaning. -/
inductive Refusal where
  /-- Raised by an arm of `exec` whose command has no meaning yet; no arm raises it now. Safe: the model stops. -/
  | notModelled (mnemonic : String)
  deriving DecidableEq, Repr

/-- The reset state of a block of `n` contexts (10_state.md R34, 70_reset_and_hazards.md R210): every context fresh,
the receiver at a frame boundary, no response pending, `rsp_valid` 0. -/
def State.resetOf (n : Nat) : State :=
  { ctxs := List.replicate n HashState.fresh, cmd := [], rsp := [], rspValid := false }

/-- The machine right after reset. NCTX is the build's (log entry 1); everything else is what the spec states. -/
def State.reset : State := State.resetOf nctx

end Sys2Proof.Machine
end

