-- ==== Sys2Proof/Machine/Operands.lean ====
section
/-! DEFINITION. The operand forms: a context index as a slot of the context file (30_encoding.md R74), and the two
ways a block buffer is reached (00_scope.md R10, 20_memory.md R52). -/

namespace Sys2Proof.Machine

/-- `CTX[c]`: the slot a context index names, unscaled (R74); none where the index is at or above NCTX. -/
def State.ctx (s : State) (c : CtxIndex) : Option HashState := s.ctxs[c.toNat]?

/-- `CTX[c] <- h`: the whole slot (10_state.md R39). -/
def State.setCtx (s : State) (c : CtxIndex) (h : HashState) : State :=
  { s with ctxs := s.ctxs.set c.toNat h }

/-- `BufRead(c, off, n)`: the n bytes `buffer[off .. off+n]` (00_scope.md R10). -/
def HashState.bufRead (S : HashState) (off n : Nat) : List Byte :=
  slice S.buffer off (off + n)

/-- `BufWrite(c, off, s)`: replace `buffer[off .. off+len(s)]` by s (00_scope.md R10). -/
def HashState.bufWrite (S : HashState) (off : Nat) (s : List Byte) : HashState :=
  { S with buffer := S.buffer.take off ++ s ++ S.buffer.drop (off + s.length) }

/-- `M[j] = unle(blk[4*j .. 4*j+4])`, j = 0 to 15 (20_memory.md R52, 43_compress_core.md R151). -/
def messageWord (blk : List Byte) (j : Nat) : Word :=
  unle 32 (slice blk (4 * j) (4 * j + 4))

end Sys2Proof.Machine
end

