-- ==== Sys2Proof/Machine/Compress.lean ====
section
/-! DEFINITION. The compression function (43_compress_core.md), written as R162 writes it. Its numbers and formulas
are those of the spec's rules, which the spec supplies from general knowledge (93_implementation_defined.md GK1 to
GK7; log entry 8). -/

namespace Sys2Proof.Machine

/-- `F(x, y, z) = (x & y) | (~x & z)` (R152). -/
def fnF (x y z : Word) : Word := (x &&& y) ||| (~~~x &&& z)

/-- `G(x, y, z) = (x & z) | (y & ~z)` (R153). -/
def fnG (x y z : Word) : Word := (x &&& z) ||| (y &&& ~~~z)

/-- `H(x, y, z) = x ^ y ^ z` (R154). -/
def fnH (x y z : Word) : Word := x ^^^ y ^^^ z

/-- `I(x, y, z) = y ^ (x | ~z)` (R155). -/
def fnI (x y z : Word) : Word := y ^^^ (x ||| ~~~z)

/-- `rotl32(v, s) = ((v << s) | (v >> (32 - s))) & 0xFFFFFFFF` for 1 <= s <= 31 (R156). -/
def rotl32 (v : Word) (s : Nat) : Word := (v <<< s) ||| (v >>> (32 - s))

/-! ### The per-step tables (R157 to R159) -/

/-- K[0..15] (R159). -/
def additive1 : List Word :=
  [0xd76aa478#32, 0xe8c7b756#32, 0x242070db#32, 0xc1bdceee#32,
   0xf57c0faf#32, 0x4787c62a#32, 0xa8304613#32, 0xfd469501#32,
   0x698098d8#32, 0x8b44f7af#32, 0xffff5bb1#32, 0x895cd7be#32,
   0x6b901122#32, 0xfd987193#32, 0xa679438e#32, 0x49b40821#32]

/-- K[16..31] (R159). -/
def additive2 : List Word :=
  [0xf61e2562#32, 0xc040b340#32, 0x265e5a51#32, 0xe9b6c7aa#32,
   0xd62f105d#32, 0x02441453#32, 0xd8a1e681#32, 0xe7d3fbc8#32,
   0x21e1cde6#32, 0xc33707d6#32, 0xf4d50d87#32, 0x455a14ed#32,
   0xa9e3e905#32, 0xfcefa3f8#32, 0x676f02d9#32, 0x8d2a4c8a#32]

/-- K[32..47] (R159). -/
def additive3 : List Word :=
  [0xfffa3942#32, 0x8771f681#32, 0x6d9d6122#32, 0xfde5380c#32,
   0xa4beea44#32, 0x4bdecfa9#32, 0xf6bb4b60#32, 0xbebfbc70#32,
   0x289b7ec6#32, 0xeaa127fa#32, 0xd4ef3085#32, 0x04881d05#32,
   0xd9d4d039#32, 0xe6db99e5#32, 0x1fa27cf8#32, 0xc4ac5665#32]

/-- K[48..63] (R159). -/
def additive4 : List Word :=
  [0xf4292244#32, 0x432aff97#32, 0xab9423a7#32, 0xfc93a039#32,
   0x655b59c3#32, 0x8f0ccc92#32, 0xffeff47d#32, 0x85845dd1#32,
   0x6fa87e4f#32, 0xfe2ce6e0#32, 0xa3014314#32, 0x4e0811a1#32,
   0xf7537e82#32, 0xbd3af235#32, 0x2ad7d2bb#32, 0xeb86d391#32]

/-- `K[i]` (R157, R159), i = 0 to 63. -/
def additive (i : Nat) : Word :=
  (additive1 ++ additive2 ++ additive3 ++ additive4).getD i 0#32

/-- `S[i]` (R158): by round and by `i mod 4`. -/
def shiftAmount (i : Nat) : Nat :=
  let row := if i ≤ 15 then [7, 12, 17, 22]
    else if i ≤ 31 then [5, 9, 14, 20]
    else if i ≤ 47 then [4, 11, 16, 23]
    else [6, 10, 15, 21]
  row.getD (i % 4) 0

/-- `g(i)` (R159): which message word step i uses. -/
def wordIndex (i : Nat) : Nat :=
  if i ≤ 15 then i
  else if i ≤ 31 then (5 * i + 1) % 16
  else if i ≤ 47 then (3 * i + 5) % 16
  else (7 * i) % 16

/-- `fn_i` (R160, R162): F, G, H, I by round. -/
def roundFn (i : Nat) (x y z : Word) : Word :=
  if i ≤ 15 then fnF x y z
  else if i ≤ 31 then fnG x y z
  else if i ≤ 47 then fnH x y z
  else fnI x y z

/-! ### The computation (R160 to R163) -/

/-- One step on the working registers (R160), `m` the message words. -/
def compressStep (m : Nat → Word) (r : Accumulator) (i : Nat) : Accumulator :=
  let f := roundFn i r.b r.c r.d
  let t := r.a + f + additive i + m (wordIndex i)
  { a := r.d, b := r.b + rotl32 t (shiftAmount i), c := r.b, d := r.c }

/-- The working registers after steps 0 to n-1 (R162). -/
def workingRegisters (m : Nat → Word) (acc : Accumulator) (n : Nat) : Accumulator :=
  (List.range n).foldl (compressStep m) acc

/-- The add-back, word by word modulo 2^32 (R161). -/
def addBack (acc r : Accumulator) : Accumulator :=
  { a := acc.a + r.a, b := acc.b + r.b, c := acc.c + r.c, d := acc.d + r.d }

/-- `Compress(acc, blk)` (R150, R162) on a block of 64 bytes. -/
def compress (acc : Accumulator) (blk : List Byte) : Accumulator :=
  addBack acc (workingRegisters (messageWord blk) acc 64)

/-- Compress the leading `n` blocks of `w` in order, each call taking the accumulator the call before produced
(R163), and give back the bytes after them. -/
def compressBlocks : Nat → Accumulator → List Byte → Accumulator × List Byte
  | 0, acc, w => (acc, w)
  | n + 1, acc, w => compressBlocks n (compress acc (w.take 64)) (w.drop 64)

end Sys2Proof.Machine
end

