-- ==== Sys2Proof/Machine/Flags.lean ====
section
/-! DEFINITION. The engine has no flags (10_state.md R36): the outcome of a command is the status byte of its own
response and is not stored. This file holds that status and the response frame (30_encoding.md R77 to R79). -/

namespace Sys2Proof.Machine

/-- The status of a command (30_encoding.md R78, 60_exceptions.md R180). -/
inductive Status where
  | ok
  /-- IMPORT of a payload that is not 89 bytes (60_exceptions.md R181). -/
  | invalidStateSize
  /-- `TypeError`-class: reserved; no step yields it (60_exceptions.md R184; log entry 10). -/
  | typeError
  /-- A frame whose header spells no well-formed command (60_exceptions.md R183). -/
  | illegalCommand
  /-- IMPORT of 89 bytes whose length byte is above 63 (60_exceptions.md R182). -/
  | invalidStateField
  deriving DecidableEq, Repr

/-- The status codes (30_encoding.md R78). -/
def Status.code : Status → Byte
  | .ok => 0x00#8
  | .invalidStateSize => 0x01#8
  | .typeError => 0x02#8
  | .illegalCommand => 0x03#8
  | .invalidStateField => 0x04#8

/-- A response frame's content (30_encoding.md R77). -/
structure Response where
  /-- `STATUS`. -/
  status  : Status
  /-- `ROPC`: the command's `OPC` byte as received. -/
  ropc    : Byte
  /-- `RLEN` is its length. -/
  payload : List Byte
  deriving DecidableEq, Repr

/-- The header word R: STATUS = R[7:0], ROPC = R[15:8], RLEN = R[31:16] (30_encoding.md R77). -/
def Response.header (r : Response) : Word :=
  BitVec.ofNat 16 r.payload.length ++ r.ropc ++ r.status.code

/-- The response frame `le(4, R) ++ rpayload` (30_encoding.md R77). -/
def Response.encode (r : Response) : List Byte :=
  le 4 r.header ++ r.payload

/-- How the host reads one response frame off the front of the response stream (R80: 4 bytes, then RLEN bytes;
70_reset_and_hazards.md R215 item 4): the status byte, the opcode echo, the payload, and the stream after it. -/
def parseResponse (bs : List Byte) : Option (Byte × Byte × List Byte × List Byte) :=
  if bs.length < 4 then none
  else
    let r : Word := unle 32 (bs.take 4)
    let rlen := (r.extractLsb' 16 16).toNat
    let rest := bs.drop 4
    if rest.length < rlen then none
    else some (r.extractLsb' 0 8, r.extractLsb' 8 8, rest.take rlen, rest.drop rlen)

end Sys2Proof.Machine
end

