-- ==== Sys2Proof/Machine/Ops.lean ====
section
/-! DEFINITION. The operations the six meanings share: answering a command, ending it with an error (the engine's one
exception entry, 60_exceptions.md R186), and reaching the context a header names. There is no return from an error
(60_exceptions.md R187): the next command runs on the unchanged contexts. -/

namespace Sys2Proof.Machine

/-- The outcome of one step of this machine. -/
abbrev Result := Host.Outcome State Fault Refusal

/-- Emit one whole response frame at the end of the response stream (30_encoding.md R70, R77). -/
def State.emit (s : State) (r : Response) : State :=
  { s with rsp := s.rsp ++ r.encode }

/-- `respond(OK, payload)` (00_scope.md R10): the command is complete and the next one follows on the stream. -/
def complete (opc : Byte) (payload : List Byte) (s : State) : Result :=
  .next (s.emit { status := .ok, ropc := opc, payload := payload })

/-- `raise <Error>` (00_scope.md R10, 60_exceptions.md R186): no context is written, one response with the error's
status, the opcode echo and RLEN = 0 takes the command's place, nothing is saved anywhere, and control goes to the
next frame. The frame itself has been consumed before (`step`). -/
def raise (e : Status) (opc : Byte) (s : State) : Result :=
  .next (s.emit { status := e, ropc := opc, payload := [] })

/-- Execute on context `c`; an index at or above NCTX is an illegal command (30_encoding.md R75, R84;
60_exceptions.md R183), found before anything else is done. -/
def onContext (opc : Byte) (c : CtxIndex) (s : State) (k : HashState → Result) : Result :=
  match s.ctx c with
  | none => raise .illegalCommand opc s
  | some S => k S

/-- The host has moved `bs` onto the command stream (30_encoding.md R70, R86); it may send ahead (20_memory.md
R59). -/
def State.feed (s : State) (bs : List Byte) : State :=
  { s with cmd := s.cmd ++ bs }

/-- The command stream with the frames already taken removed. -/
def State.withCmd (s : State) (rest : List Byte) : State :=
  { s with cmd := rest }

end Sys2Proof.Machine
end

