-- ==== Sys2Proof/Machine/Absorb.lean ====
section
/-! DEFINITION. INIT and ABSORB (40_construct_absorb.md). -/

namespace Sys2Proof.Machine

/-- `absorb(S, bytes)` (R102). The loop runs `(S.buffer_length + len(bytes)) div 64` times, once per complete block of
`buffer ++ bytes`; the counter advances once, by `len(bytes)`, modulo 2^64 (R27, R106). -/
def absorb (S : HashState) (bytes : List Byte) : HashState :=
  let w := S.buffer ++ bytes
  let r := compressBlocks (w.length / 64) S.acc w
  { acc := r.1, totalLength := S.totalLength + BitVec.ofNat 64 bytes.length, buffer := r.2 }

/-- The byte-serial form `absorb_byte` (R108): one byte into the buffer, and a block consumed as soon as it is
complete. -/
def absorbByte (S : HashState) (x : Byte) : HashState :=
  let S1 := S.bufWrite S.bufferLength [x]
  let S2 := { S1 with totalLength := S1.totalLength + 1#64 }
  if S2.bufferLength = 64 then
    { S2 with acc := compress S2.acc (S2.bufRead 0 64), buffer := [] }
  else S2

/-- INIT c [, data] (R100): the slot is created afresh, then the initial bytes are absorbed; what it held is lost. -/
def execInit (c : CtxIndex) (data : List Byte) (s : State) : Result :=
  onContext opcInit c s fun _ =>
    complete opcInit [] (s.setCtx c (absorb HashState.fresh data))

/-- ABSORB c, data (R101). -/
def execAbsorb (c : CtxIndex) (data : List Byte) (s : State) : Result :=
  onContext opcAbsorb c s fun S =>
    complete opcAbsorb [] (s.setCtx c (absorb S data))

end Sys2Proof.Machine
end

