-- ==== Sys2Proof/Machine/Finalize.lean ====
section
/-! DEFINITION. FINALIZE (41_finalize.md). -/

namespace Sys2Proof.Machine

/-- `k = (55 - S.buffer_length) mod 64`, the number of 0x00 bytes of the padding (R121), in the remainder that is
not negative. -/
def padZeros (S : HashState) : Nat := (119 - S.bufferLength % 64) % 64

/-- `pad(S)` (R121): 0x80, k bytes 0x00, and the bit count modulo 2^64, little-endian. -/
def pad (S : HashState) : List Byte :=
  [0x80#8] ++ List.replicate (padZeros S) 0x00#8 ++ le 8 (S.totalLength * 8#64)

/-- `le(4, A') ++ le(4, B') ++ le(4, C') ++ le(4, D')` (R122, R125). -/
def digestBytes (acc : Accumulator) : List Byte :=
  le 4 acc.a ++ le 4 acc.b ++ le 4 acc.c ++ le 4 acc.d

/-- `finalize(S)` (R122): one or two calls of Compress on a scratch copy of the accumulator. -/
def finalize (S : HashState) : List Byte :=
  let tail := S.buffer ++ pad S
  let acc1 := compress S.acc (slice tail 0 64)
  let acc2 := if tail.length = 128 then compress acc1 (slice tail 64 128) else acc1
  digestBytes acc2

/-- FINALIZE c (R120): the digest is the response; no context is written (R123). -/
def execFinalize (c : CtxIndex) (s : State) : Result :=
  onContext opcFinalize c s fun S =>
    complete opcFinalize (finalize S) s

end Sys2Proof.Machine
end

