-- ==== Sys2Proof/Machine/Snapshot.lean ====
section
/-! DEFINITION. EXPORT, IMPORT and COPY (42_export_import_copy.md). -/

namespace Sys2Proof.Machine

/-- `serialise(S)` (R131): the layout of 20_memory.md R57, the buffer region padded with `fill`. -/
def serialise (S : HashState) : List Byte :=
  le 4 S.acc.a ++ le 4 S.acc.b ++ le 4 S.acc.c ++ le 4 S.acc.d
    ++ le 8 S.totalLength
    ++ (S.buffer ++ List.replicate (64 - S.bufferLength) fill)
    ++ [BitVec.ofNat 8 S.bufferLength]

/-- The `buffer_length` byte of a blob (20_memory.md R57). -/
def blobBufferLength (blob : List Byte) : Nat := (blob.getD blobLengthOffset 0#8).toNat

/-- `deserialise(blob)` (R133), for a blob that passed both checks of R132; the bytes past `buffer_length` are not
kept. -/
def deserialise (blob : List Byte) : HashState :=
  { acc :=
      { a := unle 32 (slice blob 0 4), b := unle 32 (slice blob 4 8),
        c := unle 32 (slice blob 8 12), d := unle 32 (slice blob 12 16) }
    totalLength := unle 64 (slice blob 16 24)
    buffer := slice blob 24 (24 + blobBufferLength blob) }

/-- EXPORT c (R130): the blob is the response; no context is written. -/
def execExport (c : CtxIndex) (s : State) : Result :=
  onContext opcExport c s fun S =>
    complete opcExport (serialise S) s

/-- IMPORT c, blob (R132): the index, then the size, then the length byte (60_exceptions.md R185), and only then the
whole slot is replaced. -/
def execImport (c : CtxIndex) (blob : List Byte) (s : State) : Result :=
  onContext opcImport c s fun _ =>
    if blob.length ≠ blobSize then raise .invalidStateSize opcImport s
    else if 63 < blobBufferLength blob then raise .invalidStateField opcImport s
    else complete opcImport [] (s.setCtx c (deserialise blob))

/-- COPY d, s (R138): all four fields by value; d = s is legal and changes nothing. -/
def execCopy (d src : CtxIndex) (s : State) : Result :=
  onContext opcCopy d s fun _ =>
    onContext opcCopy src s fun S =>
      complete opcCopy [] (s.setCtx d S)

end Sys2Proof.Machine
end

