-- ==== Sys2Proof/Machine/Dispatch.lean ====
section
/-! DEFINITION. One arm per command (30_encoding.md R73). -/

namespace Sys2Proof.Machine

def exec (i : Instr) (s : State) : Host.Outcome State Fault Refusal :=
  match i with
  | .init c data => Sys2Proof.Machine.execInit c data s
  | .absorb c data => Sys2Proof.Machine.execAbsorb c data s
  | .finalize c => Sys2Proof.Machine.execFinalize c s
  | .exportState c => Sys2Proof.Machine.execExport c s
  | .importState c blob => Sys2Proof.Machine.execImport c blob s
  | .copy d src => Sys2Proof.Machine.execCopy d src s

end Sys2Proof.Machine
end

