-- ==== Sys2Proof/Machine/Step.lean ====
section
/-! DEFINITION. One step (00_scope.md R13): take one whole command frame from the command stream, execute it, append
one whole response frame to the response stream. -/

namespace Sys2Proof.Machine

/-- One step. A whole frame is consumed whatever becomes of it (30_encoding.md R76, R80). Where no whole frame is
there the engine waits without changing state (70_reset_and_hazards.md R214); that is no fault, and the host's next
bytes end it. Whether the host has taken earlier responses is not looked at (log entry 5). -/
def step (s : State) : Host.Outcome State Fault Refusal :=
  match nextCommand s.cmd with
  | .waiting => .next s
  | .illegal _ opc rest => raise .illegalCommand opc (s.withCmd rest)
  | .command i rest => exec i (s.withCmd rest)

/-- The frame of opcode-table word `w` put at the front of the command stream, as if the host had sent it at a frame
boundary (log entry 4). -/
def State.withFetchWord (s : State) (nbits w : Nat) : State :=
  s.withCmd (tableFrame nbits w ++ s.cmd)

end Sys2Proof.Machine
end

