-- ==== Sys2Proof/Machine/Assembler.lean ====
section
/-! DEFINITION. The assembler's notation (30_encoding.md R82, R83): command lines, the three pseudo-commands, which
operands an assembler refuses, and the written form of a line as a list of characters. -/

namespace Sys2Proof.Machine

/-- One line of a command program (R82) or a pseudo-command (R83). Indices and data are as written, before the
assembler has looked at their size. -/
inductive AsmLine where
  | init (c : Nat) (data : List Byte)
  | absorb (c : Nat) (data : List Byte)
  | finalize (c : Nat)
  | exportState (c : Nat)
  | importState (c : Nat) (data : List Byte)
  | copy (d s : Nat)
  /-- `RESET c` (R83); not the `rst` pin. -/
  | reset (c : Nat)
  /-- `NOP c` (R83). -/
  | nop (c : Nat)
  /-- `UPDATE c, data` (R83). -/
  | update (c : Nat) (data : List Byte)
  deriving DecidableEq, Repr

/-- The expansion of the pseudo-commands, one line each (R83). -/
def AsmLine.expand : AsmLine → AsmLine
  | .init c data => .init c data
  | .absorb c data => .absorb c data
  | .finalize c => .finalize c
  | .exportState c => .exportState c
  | .importState c data => .importState c data
  | .copy d s => .copy d s
  | .reset c => .init c []
  | .nop c => .absorb c []
  | .update c data => .absorb c data

/-- An index fits its 4-bit field, or the assembler refuses it (R82). An index at or above NCTX is not refused. -/
def asmIndex (c : Nat) : Option CtxIndex :=
  if c ≤ 15 then some (BitVec.ofNat 4 c) else none

/-- Data fits the 16-bit LEN field, or the assembler refuses it (R82). IMPORT data of a size other than 89 is not
refused. -/
def asmData (data : List Byte) : Option (List Byte) :=
  if data.length ≤ 65535 then some data else none

/-- The command a line assembles to (R82, R83); none where the assembler refuses an operand. A pseudo-command is
replaced by its expansion first. -/
def AsmLine.assemble (l : AsmLine) : Option Instr :=
  match l.expand with
  | .init c data => (asmIndex c).bind fun i => (asmData data).map fun b => .init i b
  | .absorb c data => (asmIndex c).bind fun i => (asmData data).map fun b => .absorb i b
  | .finalize c => (asmIndex c).map fun i => .finalize i
  | .exportState c => (asmIndex c).map fun i => .exportState i
  | .importState c data => (asmIndex c).bind fun i => (asmData data).map fun b => .importState i b
  | .copy d s => (asmIndex d).bind fun i => (asmIndex s).map fun j => .copy i j
  | .reset c => (asmIndex c).map fun i => .init i []
  | .nop c => (asmIndex c).map fun i => .absorb i []
  | .update c data => (asmIndex c).bind fun i => (asmData data).map fun b => .absorb i b

/-! ### The written form (R82) -/

/-- The double quote that opens and closes data. -/
def quoteChar : Char := Char.ofNat 34

def skipSpaces (cs : List Char) : List Char := cs.dropWhile (· == ' ')

/-- Nothing more on the line but spaces and a comment (`;` starts one). -/
def lineEnds (cs : List Char) : Bool :=
  match skipSpaces cs with
  | [] => true
  | c :: _ => c == ';'

/-- The value of a run of decimal digits. -/
def decimalValue (ds : List Char) : Nat :=
  ds.foldl (fun n d => 10 * n + (d.toNat - 48)) 0

/-- A decimal number and the text after it. -/
def parseDecimal (cs : List Char) : Option (Nat × List Char) :=
  match cs.takeWhile Char.isDigit with
  | [] => none
  | ds => some (decimalValue ds, cs.dropWhile Char.isDigit)

/-- One hex digit; both letter cases are read (log entry 9). -/
def hexValue (c : Char) : Option Nat :=
  if c.isDigit then some (c.toNat - 48)
  else if 'a' ≤ c ∧ c ≤ 'f' then some (c.toNat - 87)
  else if 'A' ≤ c ∧ c ≤ 'F' then some (c.toNat - 55)
  else none

/-- The inside of a hex literal, up to its closing quote: an even number of hex digits. -/
def parseHex : List Char → Option (List Byte × List Char)
  | [] => none
  | c :: rest =>
    if c == quoteChar then some ([], rest)
    else
      match rest with
      | [] => none
      | d :: more =>
        (hexValue c).bind fun hi => (hexValue d).bind fun lo => (parseHex more).map fun t =>
          (BitVec.ofNat 8 (16 * hi + lo) :: t.1, t.2)

/-- The inside of a quoted string, up to its closing quote: ASCII, no escapes, no terminator. -/
def parseQuoted : List Char → Option (List Byte × List Char)
  | [] => none
  | c :: rest =>
    if c == quoteChar then some ([], rest)
    else if c.toNat < 128 then (parseQuoted rest).map fun t => (BitVec.ofNat 8 c.toNat :: t.1, t.2)
    else none

/-- `data`: a quoted string, a hex literal, or `n*` and a hex literal, n copies of it. -/
def parseData (cs : List Char) : Option (List Byte × List Char) :=
  match cs with
  | [] => none
  | c :: rest =>
    if c == quoteChar then parseQuoted rest
    else if c == 'x' then
      match rest with
      | q :: more => if q == quoteChar then parseHex more else none
      | [] => none
    else
      (parseDecimal cs).bind fun t =>
        match t.2 with
        | '*' :: 'x' :: q :: more =>
          if q == quoteChar then (parseHex more).map fun h => ((List.replicate t.1 h.1).flatten, h.2) else none
        | _ => none

/-- A comma between operands, spaces around it allowed. -/
def parseComma (cs : List Char) : Option (List Char) :=
  match skipSpaces cs with
  | ',' :: rest => some (skipSpaces rest)
  | _ => none

/-- `c` alone. -/
def parseOne (cs : List Char) (mk : Nat → AsmLine) : Option AsmLine :=
  (parseDecimal cs).bind fun t => if lineEnds t.2 then some (mk t.1) else none

/-- `c, data`. -/
def parseIndexData (cs : List Char) (mk : Nat → List Byte → AsmLine) : Option AsmLine :=
  (parseDecimal cs).bind fun t => (parseComma t.2).bind fun r => (parseData r).bind fun d =>
    if lineEnds d.2 then some (mk t.1 d.1) else none

/-- `d, s`. -/
def parseTwo (cs : List Char) (mk : Nat → Nat → AsmLine) : Option AsmLine :=
  (parseDecimal cs).bind fun t => (parseComma t.2).bind fun r => (parseDecimal r).bind fun u =>
    if lineEnds u.2 then some (mk t.1 u.1) else none

/-- One written line: `some none` where it holds no command (blank, or a comment only), `none` where it is no line of
the notation. INIT's data is optional; LEN is 0 when it is left out. -/
def parseLine (cs : List Char) : Option (Option AsmLine) :=
  if lineEnds cs then some none
  else
    let text := skipSpaces cs
    let mnemonic := text.takeWhile Char.isUpper
    let after := text.dropWhile Char.isUpper
    let operands := skipSpaces after
    if after.head? != some ' ' then none
    else if mnemonic = ['I', 'N', 'I', 'T'] then
      match parseOne operands (fun c => .init c []) with
      | some l => some (some l)
      | none => (parseIndexData operands .init).map some
    else if mnemonic = ['A', 'B', 'S', 'O', 'R', 'B'] then (parseIndexData operands .absorb).map some
    else if mnemonic = ['F', 'I', 'N', 'A', 'L', 'I', 'Z', 'E'] then (parseOne operands .finalize).map some
    else if mnemonic = ['E', 'X', 'P', 'O', 'R', 'T'] then (parseOne operands .exportState).map some
    else if mnemonic = ['I', 'M', 'P', 'O', 'R', 'T'] then (parseIndexData operands .importState).map some
    else if mnemonic = ['C', 'O', 'P', 'Y'] then (parseTwo operands .copy).map some
    else if mnemonic = ['R', 'E', 'S', 'E', 'T'] then (parseOne operands .reset).map some
    else if mnemonic = ['N', 'O', 'P'] then (parseOne operands .nop).map some
    else if mnemonic = ['U', 'P', 'D', 'A', 'T', 'E'] then (parseIndexData operands .update).map some
    else none

/-- The frame bytes of one written line, or none where the notation or the assembler refuses it; a line without
command gives no bytes. -/
def assembleLine (cs : List Char) : Option (List Byte) :=
  (parseLine cs).bind fun
    | none => some []
    | some l => l.assemble.map encode

end Sys2Proof.Machine
end

