-- ==== Sys2Proof/Machine/Ports.lean ====
section
/-! DEFINITION. The eight ports, clock cycle by clock cycle (30_encoding.md R85, R86; 70_reset_and_hazards.md R210 to
R212, R215, R217). One cycle is one rising edge of `clk`; how many cycles anything takes is open (R216), so the engine's
choices in a cycle are an argument, which a statement quantifies over. What the host is assumed never to do (R219) has
no move here (log entry 7). -/

namespace Sys2Proof.Machine

/-- What the host drives in one `clk` cycle (R85). -/
structure PinsIn where
  /-- `rst`, active high, as sampled in this cycle. -/
  rst      : Bool
  /-- `cmd_valid`. -/
  cmdValid : Bool
  /-- `cmd_data`. -/
  cmdData  : Byte
  /-- `rsp_ready`. -/
  rspReady : Bool
  deriving DecidableEq, Repr

/-- What the engine drives in one `clk` cycle (R85). -/
structure PinsOut where
  /-- `cmd_ready`. -/
  cmdReady : Bool
  /-- `rsp_valid`. -/
  rspValid : Bool
  /-- `rsp_data`. -/
  rspData  : Byte
  deriving DecidableEq, Repr

/-- What the engine is free to choose in one cycle: "the engine may hold `cmd_ready` low for any finite time (it is
computing, or its response is not yet taken) and may delay `rsp_valid` for any finite time" (R86). Log entry 6. -/
structure Pace where
  /-- It takes a command byte in this cycle, if it has room for one. -/
  ready      : Bool
  /-- How many frames it finishes in this cycle, if so many whole ones are there and their responses can be emitted. -/
  executions : Nat
  /-- From the next cycle on it offers the next response byte, if there is one. -/
  offer      : Bool
  /-- The level of `rsp_data` while `rsp_valid` is 0; no rule gives it. -/
  idleData   : Byte
  deriving DecidableEq, Repr

/-- There is no whole frame on the command stream, so the engine waits for the rest of one (R214). -/
def State.waiting (s : State) : Bool :=
  match nextCommand s.cmd with
  | .waiting => true
  | .illegal _ _ _ => false
  | .command _ _ => false

/-- There is room for a response: the engine can emit one (R215 item 3). With nothing left to take there always is. How
much room there is besides is left open (log entry 11). -/
def State.canEmit (s : State) : Bool := decide (s.rsp.length ≤ rspQueueDepth)

/-- There is room for a command byte. The rest of a frame always finds room; behind a frame that has not been executed,
only as much as the queue holds (log entry 11). So where no response can be emitted, and therefore no frame executed,
`cmd_ready` stays 0 from some byte on (R215 item 3). -/
def State.canAccept (s : State) : Bool := s.waiting || decide (s.cmd.length < cmdQueueDepth)

/-- The output ports in a cycle. In reset `cmd_ready` = 0 and `rsp_valid` = 0 (R210); `rsp_data` is the first pending
response byte while `rsp_valid` is 1. -/
def State.pinsOut (s : State) (i : PinsIn) (p : Pace) : PinsOut :=
  { cmdReady := !i.rst && (p.ready && s.canAccept)
    rspValid := !i.rst && s.rspValid
    rspData := if !i.rst && s.rspValid then s.rsp.headD p.idleData else p.idleData }

/-- The command byte that moves in a cycle: `cmd_valid`, `cmd_ready` both 1 and `rst` 0 (R86). -/
def State.cmdMoved (s : State) (i : PinsIn) (p : Pace) : List Byte :=
  if i.cmdValid && (s.pinsOut i p).cmdReady && !i.rst then [i.cmdData] else []

/-- The response byte that moves in a cycle: `rsp_valid`, `rsp_ready` both 1 and `rst` 0 (R86). -/
def State.rspMoved (s : State) (i : PinsIn) (p : Pace) : List Byte :=
  if (s.pinsOut i p).rspValid && i.rspReady && !i.rst then [(s.pinsOut i p).rspData] else []

/-- The engine executes the next frame, or waits for the rest of one. -/
def State.advance (s : State) : State :=
  match step s with
  | .next t => t
  | .fault _ => s
  | .refused _ => s

/-- What `rst` does to the block (R210 to R212): every context fresh, a command half received or half answered
abandoned, both streams empty, whatever was there. The number of contexts is the build's and stays. -/
def State.afterRst (s : State) : State := State.resetOf s.contexts

/-- The bytes that move in a cycle without reset: the command byte joins the stream, the response byte leaves it.
`rsp_valid` stays 1 until the offered byte has moved (R86). -/
def State.moveBytes (s : State) (i : PinsIn) (p : Pace) : State :=
  { s with
    cmd := s.cmd ++ s.cmdMoved i p
    rsp := s.rsp.drop (s.rspMoved i p).length
    rspValid := s.rspValid && (s.rspMoved i p).isEmpty }

/-- The engine finishes at most `n` frames, as long as it can emit their responses (R215 item 3). -/
def State.work : Nat → State → State
  | 0, s => s
  | n + 1, s => if s.canEmit then State.work n s.advance else s

/-- `rsp_valid` for the next cycle: held, or raised for the next byte if the engine chooses to offer and there is one,
be it of a response emitted in this very cycle. -/
def State.offerNext (s : State) (p : Pace) : State :=
  { s with rspValid := s.rspValid || (p.offer && !s.rsp.isEmpty) }

/-- One `clk` cycle. The spec says nothing of the cycles a step takes (00_scope.md R13, R216), so the engine may finish
any number of frames in it and may raise `rsp_valid` in the next cycle or in any later one. The one bound is DEDUCED: a
frame whose last byte moves in this cycle has not arrived before (R214, R86), so its response is offered in the next
cycle at the earliest (log entry 6). -/
def State.clock (s : State) (i : PinsIn) (p : Pace) : State :=
  if i.rst then s.afterRst
  else ((s.moveBytes i p).work p.executions).offerNext p

/-- What a sequence of cycles did: the command bytes that moved, the response bytes that moved, the state after. -/
structure PortTrace where
  sent     : List Byte
  received : List Byte
  state    : State
  deriving DecidableEq, Repr

/-- A sequence of cycles: what the host drives and what the engine chooses in each. -/
def State.runCycles (s : State) : List (PinsIn × Pace) → PortTrace
  | [] => { sent := [], received := [], state := s }
  | (i, p) :: more =>
    let t := (s.clock i p).runCycles more
    { sent := s.cmdMoved i p ++ t.sent, received := s.rspMoved i p ++ t.received, state := t.state }

/-- The engine executes `n` times. -/
def State.advances : Nat → State → State
  | 0, s => s
  | n + 1, s => State.advances n s.advance

/-- Every whole frame on the command stream executed, in order (R217). A frame is at least 4 bytes, so as many steps
as there are bytes are enough. -/
def State.settle (s : State) : State := State.advances s.cmd.length s

/-! ### Progress (R217) -/

/-- What the host drives and what the engine chooses in cycle 0, 1, 2 and so on. -/
abbrev Schedule := Nat → PinsIn × Pace

/-- What the first `n` cycles of a schedule did. -/
def State.trace (s : State) (run : Schedule) (n : Nat) : PortTrace := s.runCycles ((List.range n).map run)

/-- The state in cycle `n`. -/
def State.atCycle (s : State) (run : Schedule) (n : Nat) : State := (s.trace run n).state

/-- The engine takes a command byte that is offered while there is room, unless the one or the other ends. -/
def EngineAccepts (s : State) (run : Schedule) : Prop :=
  ∀ n, ∃ m, n ≤ m ∧
    ((run m).1.cmdValid = true → (s.atCycle run m).canAccept = true → (run m).2.ready = true)

/-- The engine executes a whole frame while its response can be emitted, unless the one or the other ends. -/
def EngineExecutes (s : State) (run : Schedule) : Prop :=
  ∀ n, ∃ m, n ≤ m ∧
    ((s.atCycle run m).waiting = false → (s.atCycle run m).canEmit = true → 0 < (run m).2.executions)

/-- The engine offers a response byte that waits to be offered. -/
def EngineOffers (s : State) (run : Schedule) : Prop :=
  ∀ n, ∃ m, n ≤ m ∧
    ((s.atCycle run m).rsp ≠ [] → (s.atCycle run m).rspValid = false → (run m).2.offer = true)

/-- Weak fairness of the engine (R217): what it can do from some cycle on without a break, it does at some cycle. A
`Pace` alone may refuse for ever; a run of the hardware is a schedule with this property. -/
def EngineFair (s : State) (run : Schedule) : Prop :=
  EngineAccepts s run ∧ EngineExecutes s run ∧ EngineOffers s run

/-- The host offers the bytes of `program` in order and no others, holds each until it has moved (R86), and offers every
one of them at some cycle (R217). -/
def HostSends (s : State) (run : Schedule) (program : List Byte) : Prop :=
  (∀ n, (run n).1.cmdValid = true → program[(s.trace run n).sent.length]? = some (run n).1.cmdData) ∧
  (∀ n, (run n).1.cmdValid = true → (s.atCycle run n).cmdMoved (run n).1 (run n).2 = [] →
    (run (n + 1)).1.cmdValid = true) ∧
  (∀ n, (s.trace run n).sent.length < program.length → ∃ m, n ≤ m ∧ (run m).1.cmdValid = true)

/-- The host takes every response byte that is offered, at some cycle (R217, R215 item 3). -/
def HostTakes (s : State) (run : Schedule) : Prop :=
  ∀ n, ∃ m, n ≤ m ∧ ((s.atCycle run m).rspValid = true → (run m).1.rspReady = true)

/-- `rst` stays 0. -/
def NoReset (run : Schedule) : Prop := ∀ n, (run n).1.rst = false

end Sys2Proof.Machine
end

