-- ==== Sys2Proof/Safety.lean ====
section
/-! DEFINITION. The terms claims are stated in: the invariant of the state, coherence, which context a command
writes, which headers are illegal and which responses can be. Each is written from the spec's rules in plain numbers,
apart from the definitions the machine runs on, so that a claim compares the two. -/

namespace Sys2Proof.Machine

/-- What holds of the block between two commands: 1 to 16 contexts (00_scope.md R5), no buffer above 63 bytes
(10_state.md R26), and a response byte is offered only where there is one (30_encoding.md R86). -/
def State.Inv (s : State) : Prop :=
  1 ≤ s.contexts ∧ s.contexts ≤ 16 ∧ (∀ S ∈ s.ctxs, S.bufferLength ≤ 63) ∧
    (s.rspValid = true → s.rsp ≠ [])

/-- `buffer_length = total_length mod 64` (10_state.md R29). -/
def HashState.Coherent (S : HashState) : Prop := S.bufferLength = S.totalLength.toNat % 64

/-- Every context is coherent (10_state.md R29). -/
def State.Coherent (s : State) : Prop := ∀ S ∈ s.ctxs, S.Coherent

/-- The context a command may write, its destination (10_state.md R38, R39); FINALIZE and EXPORT write none. -/
def writtenContext : Instr → Option CtxIndex
  | .init c _ => some c
  | .absorb c _ => some c
  | .finalize _ => none
  | .exportState _ => none
  | .importState c _ => some c
  | .copy d _ => some d

/-- A header that spells no well-formed command in a block of `n` contexts (60_exceptions.md R183): the fields of H by
their places (30_encoding.md R72), the list of conditions as R183 gives it. -/
def illegalHeader (n : Nat) (h : Word) : Prop :=
  let opc := h.toNat % 256
  let ctx := h.toNat / 2 ^ 8 % 16
  let src := h.toNat / 2 ^ 12 % 16
  let len := h.toNat / 2 ^ 16
  opc < 1 ∨ 6 < opc ∨ n ≤ ctx ∨ (opc ≤ 5 ∧ src ≠ 0) ∨ (opc = 6 ∧ n ≤ src) ∨
    ((opc = 3 ∨ opc = 4 ∨ opc = 6) ∧ len ≠ 0)

/-- What every whole frame with opcode `opc` at the front of the command stream comes to (30_encoding.md R71, R72, R75,
R76): the frame is consumed; where its context, source and length fields are `bad`, no context changes and the response
is 0x03 with the opcode echoed; otherwise the command `mk` is executed on those fields and the payload. -/
def State.RunsFrames (s : State) (opc : Nat) (bad : Nat → Nat → Nat → Prop)
    (mk : CtxIndex → CtxIndex → List Byte → Instr) : Prop :=
  ∀ (h : Word) (payload rest : List Byte),
    s.cmd = le 4 h ++ payload ++ rest → payload.length = h.toNat / 2 ^ 16 → h.toNat % 256 = opc →
    (bad (h.toNat / 2 ^ 8 % 16) (h.toNat / 2 ^ 12 % 16) payload.length →
      step s = .next { s with cmd := rest, rsp := s.rsp ++ [0x03#8, BitVec.ofNat 8 opc, 0x00#8, 0x00#8] }) ∧
    (¬ bad (h.toNat / 2 ^ 8 % 16) (h.toNat / 2 ^ 12 % 16) payload.length →
      step s = exec (mk (BitVec.ofNat 4 (h.toNat / 2 ^ 8)) (BitVec.ofNat 4 (h.toNat / 2 ^ 12)) payload)
        { s with cmd := rest })

/-- The response headers that can be, as stream bytes (30_encoding.md R79): STATUS, ROPC, the length of the
payload. -/
def possibleResponse (status ropc : Byte) (rlen : Nat) : Prop :=
  (status = 0x00#8 ∧ ropc = 0x01#8 ∧ rlen = 0) ∨ (status = 0x00#8 ∧ ropc = 0x02#8 ∧ rlen = 0) ∨
  (status = 0x00#8 ∧ ropc = 0x03#8 ∧ rlen = 16) ∨ (status = 0x00#8 ∧ ropc = 0x04#8 ∧ rlen = 89) ∨
  (status = 0x00#8 ∧ ropc = 0x05#8 ∧ rlen = 0) ∨ (status = 0x00#8 ∧ ropc = 0x06#8 ∧ rlen = 0) ∨
  (status = 0x01#8 ∧ ropc = 0x05#8 ∧ rlen = 0) ∨ (status = 0x04#8 ∧ ropc = 0x05#8 ∧ rlen = 0) ∨
  (status = 0x03#8 ∧ rlen = 0)

/-- The commands of a list executed one after the other (20_memory.md R59), stopping where one does not answer a next
state. -/
def execAll : List Instr → State → State
  | [], s => s
  | i :: more, s =>
    match exec i s with
    | .next t => execAll more t
    | .fault _ => s
    | .refused _ => s

/-- Every block is 64 bytes (00_scope.md R4). -/
def AllBlocks (blocks : List (List Byte)) : Prop := ∀ b ∈ blocks, b.length = 64

/-- The message `m` with the padding that the standard appends (41_finalize.md R121, R127), written without any
HashState. -/
def paddedMessage (m : List Byte) : List Byte :=
  m ++ [0x80#8] ++ List.replicate ((119 - m.length % 64) % 64) 0x00#8 ++ le 8 (BitVec.ofNat 64 (8 * m.length))

end Sys2Proof.Machine
end

