-- ==== Sys2Proof/Certificates/Slice0/Obligations.lean ====
section
/-! DEFINITION. The statements for the provers. Each docstring names the rule of spec/ it formalises. A rule that the
spec marks as derived, or as supplied from general knowledge, is the spec's own inference: a statement of it says so. -/

open Sys2Proof Sys2Proof.Machine

/-! ### Reset and the invariant -/

/-- R34 (10_state.md): the state after reset, for every number of contexts that R5 allows. -/
def Obligations.ResetLeavesEveryContextFresh : Prop :=
  ∀ n : Nat, 1 ≤ n → n ≤ 16 →
    (State.resetOf n).contexts = n ∧
    (∀ c : CtxIndex, c.toNat < n →
      (State.resetOf n).ctx c = some
        { acc := { a := 0x67452301#32, b := 0xefcdab89#32, c := 0x98badcfe#32, d := 0x10325476#32 }
          totalLength := 0#64
          buffer := [] }) ∧
    (State.resetOf n).cmd = [] ∧ (State.resetOf n).rsp = [] ∧ (State.resetOf n).rspValid = false

/-- The machine's reset state is the one R34 gives for the build's NCTX, which lies in the range of R5; it meets the
invariant and is coherent. That the build's NCTX is an opaque constant is the model's choice (log entry 1). -/
def Obligations.ResetMeetsTheInvariant : Prop :=
  State.reset = State.resetOf nctx ∧ 1 ≤ nctx ∧ nctx ≤ 16 ∧ State.reset.Inv ∧ State.reset.Coherent

/-- R26 (10_state.md): no buffer is ever above 63 bytes, from every state in which none is, whatever the step or the
clock cycle does. The same invariant holds the number of contexts in R5's range and a response byte behind
`rsp_valid` (R86). -/
def Obligations.EveryStepKeepsTheInvariant : Prop :=
  (∀ s t : State, s.Inv → step s = .next t → t.Inv) ∧
  (∀ (s : State) (i : PinsIn) (p : Pace), s.Inv → (s.clock i p).Inv)

/-- R29 (10_state.md), which the spec marks as derived: `absorb` preserves coherence, and so does every step that
executes no IMPORT. -/
def Obligations.StepKeepsCoherence : Prop :=
  (∀ (S : HashState) (bytes : List Byte), S.Coherent → (absorb S bytes).Coherent) ∧
  (∀ s t : State, s.Coherent → (∀ c blob rest, nextCommand s.cmd ≠ .command (.importState c blob) rest) →
    step s = .next t → t.Coherent)

/-! ### Encoding and the step -/

/-- R9 (00_scope.md): little-endian transcoding; byte i of `le` is bits 8i+7 to 8i, and `unle`, the sum of the bytes
by weight, is its inverse both ways. -/
def Obligations.UnleInvertsLe : Prop :=
  (∀ (n : Nat) (v : BitVec (8 * n)),
    (le n v).length = n ∧ (∀ i, i < n → (le n v)[i]? = some (v.extractLsb' (8 * i) 8)) ∧
    unleNat (le n v) = v.toNat ∧ unle (8 * n) (le n v) = v) ∧
  (∀ (n : Nat) (s : List Byte), s.length = n → le n (unle (8 * n) s) = s)

/-- Decode and encode agree (30_encoding.md, sections 2 and 8): from the encoding of a well-formed command with any
bytes after it, the decoder reads that command and leaves exactly those bytes. -/
def Obligations.DecodeOfEncodeIsTheCommand : Prop :=
  ∀ (i : Instr) (rest : List Byte), i.wellFormed = true →
    nextCommand (encode i ++ rest) = .command i rest

/-- No two frames spell one command (30_encoding.md, sections 2 and 8): the bytes of every frame that decodes are the
encoding of the command it decodes to. -/
def Obligations.EncodeOfDecodeIsTheFrame : Prop :=
  ∀ (bs : List Byte) (i : Instr) (rest : List Byte), nextCommand bs = .command i rest →
    bs = encode i ++ rest ∧ i.wellFormed = true

/-- R71 and R80 (30_encoding.md): one frame is 4 header bytes and LEN payload bytes, whatever the opcode and whether or
not it is legal. -/
def Obligations.FrameLengthDependsOnLenAlone : Prop :=
  (∀ (h : Word) (payload rest : List Byte), payload.length = h.toNat / 2 ^ 16 →
    takeFrame (le 4 h ++ payload ++ rest) = some ({ header := h, payload := payload }, rest)) ∧
  (∀ (bs : List Byte) (f : Frame) (rest : List Byte), takeFrame bs = some (f, rest) →
    bs = le 4 f.header ++ f.payload ++ rest ∧ f.payload.length = f.header.toNat / 2 ^ 16)

/-- Words written out from R72 and R73 (30_encoding.md) decode to the commands they stand for, and others to none. -/
def Obligations.SampleFramesDecode : Prop :=
  decodeTableWord 32 0x00000301 = some (.init 3#4 []) ∧
  decodeTableWord 40 0xff00010f02 = some (.absorb 15#4 [0xff#8]) ∧
  decodeTableWord 32 0x00000103 = some (.finalize 1#4) ∧
  decodeTableWord 32 0x00000204 = some (.exportState 2#4) ∧
  decodeTableWord 48 0xbeef00020105 = some (.importState 1#4 [0xef#8, 0xbe#8]) ∧
  decodeTableWord 32 0x0000f206 = some (.copy 2#4 15#4) ∧
  decodeTableWord 32 0x00000000 = none ∧
  decodeTableWord 32 0x00001003 = none ∧
  decodeTableWord 40 0x7a00010106 = none

/-- R13 (00_scope.md) and R84 (30_encoding.md): where the front of the command stream decodes to a command, one step is
that command executed on the state whose stream has moved past the whole frame; nothing else is around it. -/
def Obligations.StepRunsTheDecodedCommand : Prop :=
  ∀ (s : State) (i : Instr) (rest : List Byte), nextCommand s.cmd = .command i rest →
    step s = exec i { s with cmd := rest }

/-- R84, with R75, R76 and R183: the decode procedure, from the header's bits. A whole frame is consumed. If its header
is illegal in a block of this many contexts, no context changes and the response is 0x03, the opcode byte as received
and RLEN 0; otherwise the command executed has that opcode, those indices and that payload. -/
def Obligations.StepFollowsTheDecodeProcedure : Prop :=
  ∀ (s : State) (h : Word) (payload rest : List Byte),
    s.cmd = le 4 h ++ payload ++ rest → payload.length = h.toNat / 2 ^ 16 →
    (illegalHeader s.contexts h →
      step s = .next { s with
        cmd := rest
        rsp := s.rsp ++ [0x03#8, BitVec.ofNat 8 h.toNat, 0x00#8, 0x00#8] }) ∧
    (¬ illegalHeader s.contexts h →
      ∃ i : Instr, i.opcode.toNat = h.toNat % 256 ∧ i.ctx.toNat = h.toNat / 2 ^ 8 % 16 ∧
        i.src.toNat = h.toNat / 2 ^ 12 % 16 ∧ i.payload = payload ∧ i.indicesValid s.contexts = true ∧
        step s = exec i { s with cmd := rest })

/-- R214 (70_reset_and_hazards.md): with fewer than 4 bytes, or a header and fewer than LEN bytes after it, the engine
waits without changing state. -/
def Obligations.IncompleteFrameWaits : Prop :=
  ∀ s : State,
    (s.cmd.length < 4 → step s = .next s) ∧
    (∀ (h : Word) (part : List Byte), s.cmd = le 4 h ++ part → part.length < h.toNat / 2 ^ 16 →
      step s = .next s)

/-- R77 and R80 (30_encoding.md): a response frame is read back by its RLEN, whatever follows it. -/
def Obligations.ResponseFramesParse : Prop :=
  ∀ (r : Response) (rest : List Byte), r.payload.length ≤ 65535 →
    parseResponse (r.encode ++ rest) = some (r.status.code, r.ropc, r.payload, rest)

/-- R79, with R77, R78 and R184 (30_encoding.md, 60_exceptions.md): from a state that meets the invariant, a step waits,
or appends one whole response frame whose header is one of those R79 lists; status 0x02 is never produced. -/
def Obligations.EveryStepAnswersOneListedResponse : Prop :=
  ∀ s t : State, s.Inv → step s = .next t →
    t = s ∨ ∃ (status ropc : Byte) (payload : List Byte),
      possibleResponse status ropc payload.length ∧ status ≠ 0x02#8 ∧
      t.rsp = s.rsp ++
        [status, ropc, BitVec.ofNat 8 payload.length, BitVec.ofNat 8 (payload.length / 256)] ++ payload

/-! ### INIT and ABSORB -/

/-- R100 (40_construct_absorb.md): INIT replaces the slot by the fresh HashState with the initial bytes absorbed, and
answers OK; without data that is the reset state; with an index at or above NCTX it is an illegal command; and a frame
with opcode 0x01 runs it on the frame's payload, or is illegal where CTX is at or above NCTX or SRC is not 0. -/
def Obligations.InitCreatesTheContextAfresh : Prop :=
  ∀ (s : State) (c : CtxIndex) (data : List Byte),
    (c.toNat < s.contexts →
      exec (.init c data) s = .next { s with
        ctxs := s.ctxs.set c.toNat (absorb
          { acc := { a := 0x67452301#32, b := 0xefcdab89#32, c := 0x98badcfe#32, d := 0x10325476#32 }
            totalLength := 0#64
            buffer := [] } data)
        rsp := s.rsp ++ [0x00#8, 0x01#8, 0x00#8, 0x00#8] }) ∧
    (c.toNat < s.contexts → ∃ t, exec (.init c []) s = .next t ∧ t.ctx c = some HashState.fresh) ∧
    (s.contexts ≤ c.toNat →
      exec (.init c data) s = .next { s with rsp := s.rsp ++ [0x03#8, 0x01#8, 0x00#8, 0x00#8] }) ∧
    s.RunsFrames 1 (fun ctx src _ => s.contexts ≤ ctx ∨ src ≠ 0) (fun i _ payload => .init i payload)

/-- INIT c, s leaves the contexts as INIT c followed by ABSORB c, s, which R100 marks as derived
(40_construct_absorb.md section 1). -/
def Obligations.InitWithDataIsInitThenAbsorb : Prop :=
  ∀ (s : State) (c : CtxIndex) (data : List Byte), c.toNat < s.contexts →
    ∃ t u v, exec (.init c []) s = .next t ∧ exec (.absorb c data) t = .next u ∧
      exec (.init c data) s = .next v ∧ u.ctxs = v.ctxs

/-- R101 (40_construct_absorb.md): ABSORB replaces the slot by `absorb` of it and the payload, and answers OK; with an
index at or above NCTX it is an illegal command; and a frame with opcode 0x02 runs it on the frame's payload, or is
illegal where CTX is at or above NCTX or SRC is not 0. -/
def Obligations.AbsorbAppendsToTheContext : Prop :=
  ∀ (s : State) (c : CtxIndex) (data : List Byte),
    (∀ S, s.ctx c = some S →
      exec (.absorb c data) s = .next { s with
        ctxs := s.ctxs.set c.toNat (absorb S data)
        rsp := s.rsp ++ [0x00#8, 0x02#8, 0x00#8, 0x00#8] }) ∧
    (s.contexts ≤ c.toNat →
      exec (.absorb c data) s = .next { s with rsp := s.rsp ++ [0x03#8, 0x02#8, 0x00#8, 0x00#8] }) ∧
    s.RunsFrames 2 (fun ctx src _ => s.contexts ≤ ctx ∨ src ≠ 0) (fun i _ payload => .absorb i payload)

/-- R102 and R163 (40_construct_absorb.md, 43_compress_core.md): cut `buffer ++ bytes` into 64-byte blocks and a rest
shorter than a block; `absorb` chains Compress over the blocks in order from the accumulator, keeps the rest as the
buffer, and advances the counter by `len(bytes)` modulo 2^64. -/
def Obligations.AbsorbChainsWholeBlocks : Prop :=
  ∀ (S : HashState) (bytes rest : List Byte) (blocks : List (List Byte)),
    AllBlocks blocks → rest.length < 64 → S.buffer ++ bytes = blocks.flatten ++ rest →
    (absorb S bytes).acc = blocks.foldl compress S.acc ∧
    (absorb S bytes).buffer = rest ∧
    (absorb S bytes).totalLength.toNat = (S.totalLength.toNat + bytes.length) % 2 ^ 64 ∧
    blocks.length = (S.bufferLength + bytes.length) / 64 ∧
    (absorb S bytes).bufferLength = (S.bufferLength + bytes.length) % 64

/-- R103 (40_construct_absorb.md): absorbing nothing changes no field, and the command answers OK. The premise is R26's
range of `buffer_length`. -/
def Obligations.AbsorbOfNothingIsNoChange : Prop :=
  (∀ S : HashState, S.bufferLength ≤ 63 → absorb S [] = S) ∧
  (∀ (s : State) (c : CtxIndex) (S : HashState), s.ctx c = some S → S.bufferLength ≤ 63 →
    exec (.absorb c []) s = .next { s with rsp := s.rsp ++ [0x00#8, 0x02#8, 0x00#8, 0x00#8] })

/-- The concatenation law, which the spec marks as derived from R102 (40_construct_absorb.md section 3, R104). -/
def Obligations.AbsorbConcatenation : Prop :=
  ∀ (S : HashState) (x y : List Byte), absorb (absorb S x) y = absorb S (x ++ y)

/-- R81 (30_encoding.md): consecutive ABSORB commands to one context leave it as one unbounded absorb of their payloads
together would. -/
def Obligations.LongInputSplitsIntoAbsorbs : Prop :=
  ∀ (s : State) (c : CtxIndex) (S : HashState) (pieces : List (List Byte)),
    s.ctx c = some S → S.bufferLength ≤ 63 →
    (execAll (pieces.map (.absorb c)) s).ctx c = some (absorb S pieces.flatten)

/-- R105 (40_construct_absorb.md): the digest does not depend on where an input is split. -/
def Obligations.DigestIndependentOfTheSplit : Prop :=
  ∀ (s : List Byte) (i : Nat), i ≤ s.length →
    finalize (absorb (absorb HashState.fresh (slice s 0 i)) (slice s i s.length)) =
      finalize (absorb HashState.fresh s)

/-- R106 (40_construct_absorb.md): the counter wraps modulo 2^64; the command still answers OK. -/
def Obligations.CounterWraps : Prop :=
  ∀ (s : State) (c : CtxIndex) (S : HashState) (data : List Byte), s.ctx c = some S →
    ∃ t T, exec (.absorb c data) s = .next t ∧ t.ctx c = some T ∧
      T.totalLength.toNat = (S.totalLength.toNat + data.length) % 2 ^ 64 ∧
      t.rsp = s.rsp ++ [0x00#8, 0x02#8, 0x00#8, 0x00#8]

/-- Accumulator inertia, which the spec marks as derived from R102 (40_construct_absorb.md section 3, R107): bytes that
complete no block leave A, B, C, D alone and only join the buffer. -/
def Obligations.AccumulatorWaitsForABlock : Prop :=
  ∀ (S : HashState) (bytes : List Byte), S.bufferLength + bytes.length < 64 →
    (absorb S bytes).acc = S.acc ∧ (absorb S bytes).buffer = S.buffer ++ bytes

/-- The byte-serial form, which the spec marks as derived (40_construct_absorb.md section 3, R108). -/
def Obligations.ByteSerialFormAgrees : Prop :=
  ∀ (S : HashState) (bytes : List Byte), S.bufferLength ≤ 63 →
    bytes.foldl absorbByte S = absorb S bytes

/-! ### FINALIZE -/

/-- R120, with R123 (41_finalize.md): FINALIZE answers the 16 bytes of `finalize` and writes no context; with an index at
or above NCTX it is an illegal command; and a frame with opcode 0x03 runs it, or is illegal where CTX is at or above
NCTX, SRC is not 0 or LEN is not 0. -/
def Obligations.FinalizeAnswersTheDigest : Prop :=
  ∀ (s : State) (c : CtxIndex),
    (∀ S, s.ctx c = some S →
      (finalize S).length = 16 ∧
      exec (.finalize c) s = .next { s with
        rsp := s.rsp ++ [0x00#8, 0x03#8, 0x10#8, 0x00#8] ++ finalize S }) ∧
    (s.contexts ≤ c.toNat →
      exec (.finalize c) s = .next { s with rsp := s.rsp ++ [0x03#8, 0x03#8, 0x00#8, 0x00#8] }) ∧
    s.RunsFrames 3 (fun ctx src len => s.contexts ≤ ctx ∨ src ≠ 0 ∨ len ≠ 0) (fun i _ _ => .finalize i)

/-- R121 (41_finalize.md): the padding is 0x80, the least number of zeros that brings the length to 56 modulo 64, and
the bit count modulo 2^64; so the top three bits of `total_length` do not reach it. -/
def Obligations.PaddingAsRuled : Prop :=
  (∀ (S : HashState) (k : Nat), k < 64 → (S.bufferLength + 1 + k) % 64 = 56 →
    pad S = [0x80#8] ++ List.replicate k 0x00#8 ++ le 8 (BitVec.ofNat 64 (S.totalLength.toNat * 8))) ∧
  (∀ S : HashState, S.bufferLength ≤ 55 → padZeros S = 55 - S.bufferLength) ∧
  (∀ S : HashState, 56 ≤ S.bufferLength → S.bufferLength ≤ 63 → padZeros S = 119 - S.bufferLength) ∧
  (∀ (S : HashState) (top : Nat),
    pad { S with totalLength := S.totalLength + BitVec.ofNat 64 (top * 2 ^ 61) } = pad S)

/-- The number of final blocks, which the spec marks as derived from R121 (41_finalize.md section 2, R124): the padded
tail is one block up to 55 buffered bytes, two from 56 to 63. -/
def Obligations.PaddedTailIsOneOrTwoBlocks : Prop :=
  ∀ S : HashState,
    (S.bufferLength ≤ 55 → (S.buffer ++ pad S).length = 64) ∧
    (56 ≤ S.bufferLength → S.bufferLength ≤ 63 → (S.buffer ++ pad S).length = 128)

/-- R122 (41_finalize.md): the digest is the accumulator chained over the blocks of `buffer ++ pad`, whether one or two,
as sixteen bytes. -/
def Obligations.FinalizeChainsThePaddedTail : Prop :=
  ∀ (S : HashState) (blocks : List (List Byte)), S.bufferLength ≤ 63 → AllBlocks blocks →
    S.buffer ++ pad S = blocks.flatten →
    finalize S = digestBytes (blocks.foldl compress S.acc) ∧ (blocks.length = 1 ∨ blocks.length = 2)

/-- R125 (41_finalize.md): digest byte 4i + j is bits 8j+7 to 8j of the i-th word. -/
def Obligations.DigestByteOrder : Prop :=
  ∀ (acc : Accumulator) (i j : Nat), i < 4 → j < 4 →
    (digestBytes acc).length = 16 ∧
    (digestBytes acc)[4 * i + j]? =
      some (([acc.a, acc.b, acc.c, acc.d].getD i 0#32).extractLsb' (8 * j) 8)

/-- What the digest is, which the spec marks as derived (41_finalize.md section 2, R127): for every message, `finalize`
of the context that absorbed it is Compress chained from the initial constants over the message padded by the standard
in one piece, whose length is a multiple of 64 bytes. -/
def Obligations.DigestIsTheMd5OfTheMessage : Prop :=
  ∀ m : List Byte,
    (paddedMessage m).length % 64 = 0 ∧
    ∀ blocks : List (List Byte), AllBlocks blocks → blocks.flatten = paddedMessage m →
      finalize (absorb HashState.fresh m) =
        digestBytes (blocks.foldl compress
          { a := 0x67452301#32, b := 0xefcdab89#32, c := 0x98badcfe#32, d := 0x10325476#32 })

/-! ### EXPORT, IMPORT, COPY -/

/-- R130 (42_export_import_copy.md): EXPORT answers the 89 bytes of `serialise` and writes no context; with an index at
or above NCTX it is an illegal command; and a frame with opcode 0x04 runs it, or is illegal where CTX is at or above
NCTX, SRC is not 0 or LEN is not 0. -/
def Obligations.ExportAnswersTheBlob : Prop :=
  ∀ (s : State) (c : CtxIndex),
    (∀ S, s.ctx c = some S → S.bufferLength ≤ 63 →
      (serialise S).length = 89 ∧
      exec (.exportState c) s = .next { s with
        rsp := s.rsp ++ [0x00#8, 0x04#8, 0x59#8, 0x00#8] ++ serialise S }) ∧
    (s.contexts ≤ c.toNat →
      exec (.exportState c) s = .next { s with rsp := s.rsp ++ [0x03#8, 0x04#8, 0x00#8, 0x00#8] }) ∧
    s.RunsFrames 4 (fun ctx src len => s.contexts ≤ ctx ∨ src ≠ 0 ∨ len ≠ 0) (fun i _ _ => .exportState i)

/-- R57 and R131 (20_memory.md, 42_export_import_copy.md): every field of the blob stands at its offset, the filler is
0x00, and equal blobs mean equal states. -/
def Obligations.BlobLayout : Prop :=
  (∀ S : HashState, S.bufferLength ≤ 63 →
    (serialise S).length = 89 ∧
    slice (serialise S) 0 4 = le 4 S.acc.a ∧ slice (serialise S) 4 8 = le 4 S.acc.b ∧
    slice (serialise S) 8 12 = le 4 S.acc.c ∧ slice (serialise S) 12 16 = le 4 S.acc.d ∧
    slice (serialise S) 16 24 = le 8 S.totalLength ∧
    slice (serialise S) 24 (24 + S.bufferLength) = S.buffer ∧
    slice (serialise S) (24 + S.bufferLength) 88 = List.replicate (64 - S.bufferLength) 0x00#8 ∧
    (serialise S)[88]? = some (BitVec.ofNat 8 S.bufferLength)) ∧
  (∀ S T : HashState, S.bufferLength ≤ 63 → T.bufferLength ≤ 63 → serialise S = serialise T → S = T)

/-- R133 (42_export_import_copy.md): each field is decoded from its place, and the bytes past `buffer_length` are not
kept, whatever they are. -/
def Obligations.DeserialiseDecodesTheLayout : Prop :=
  ∀ (a b c d : Word) (total : Count) (buffer filler : List Byte),
    buffer.length ≤ 63 → filler.length = 64 - buffer.length →
    deserialise (le 4 a ++ le 4 b ++ le 4 c ++ le 4 d ++ le 8 total ++ buffer ++ filler
        ++ [BitVec.ofNat 8 buffer.length]) =
      { acc := { a := a, b := b, c := c, d := d }, totalLength := total, buffer := buffer }

/-- R132 (42_export_import_copy.md), with R181, R182 and R185 (60_exceptions.md): IMPORT reports the first of these
conditions and then changes no context: an index at or above NCTX, a size other than 89 bytes, a length byte above 63;
otherwise it replaces the slot wholesale and answers OK. A frame with opcode 0x05 runs it on the frame's payload, of
whatever length, or is illegal where CTX is at or above NCTX or SRC is not 0. -/
def Obligations.ImportChecksInOrderThenInstalls : Prop :=
  ∀ (s : State) (c : CtxIndex) (blob : List Byte),
    (s.contexts ≤ c.toNat →
      exec (.importState c blob) s = .next { s with rsp := s.rsp ++ [0x03#8, 0x05#8, 0x00#8, 0x00#8] }) ∧
    (c.toNat < s.contexts → blob.length ≠ 89 →
      exec (.importState c blob) s = .next { s with rsp := s.rsp ++ [0x01#8, 0x05#8, 0x00#8, 0x00#8] }) ∧
    (∀ last : Byte, c.toNat < s.contexts → blob.length = 89 → blob[88]? = some last → 64 ≤ last.toNat →
      exec (.importState c blob) s = .next { s with rsp := s.rsp ++ [0x04#8, 0x05#8, 0x00#8, 0x00#8] }) ∧
    (∀ last : Byte, c.toNat < s.contexts → blob.length = 89 → blob[88]? = some last → last.toNat ≤ 63 →
      exec (.importState c blob) s = .next { s with
        ctxs := s.ctxs.set c.toNat (deserialise blob)
        rsp := s.rsp ++ [0x00#8, 0x05#8, 0x00#8, 0x00#8] } ∧
      (deserialise blob).bufferLength = last.toNat) ∧
    s.RunsFrames 5 (fun ctx src _ => s.contexts ≤ ctx ∨ src ≠ 0) (fun i _ payload => .importState i payload)

/-- Import after export is the identity, which the spec marks as derived (42_export_import_copy.md section 3, R135);
and the exported blob passes both checks of IMPORT. -/
def Obligations.ImportAfterExportIsIdentity : Prop :=
  ∀ S : HashState, S.bufferLength ≤ 63 →
    deserialise (serialise S) = S ∧ (serialise S).length = 89 ∧
    ∃ last : Byte, (serialise S)[88]? = some last ∧ last.toNat ≤ 63

/-- Export after import normalises the filler, which the spec marks as derived (42_export_import_copy.md section 3,
R136). -/
def Obligations.ExportAfterImportNormalisesFiller : Prop :=
  ∀ (blob : List Byte) (last : Byte), blob.length = 89 → blob[88]? = some last → last.toNat ≤ 63 →
    serialise (deserialise blob) =
      slice blob 0 (24 + last.toNat) ++ List.replicate (64 - last.toNat) 0x00#8 ++ [last]

/-- Checkpoint and resume, which the spec marks as derived (42_export_import_copy.md section 3, R137): export a context
that absorbed `x`, import the blob into any context of any engine, absorb `y` there; the state and the digest are those
of one context that absorbed `x ++ y`. -/
def Obligations.CheckpointResumesExactly : Prop :=
  ∀ (x y : List Byte) (u : State) (c : CtxIndex), c.toNat < u.contexts →
    finalize (absorb (deserialise (serialise (absorb HashState.fresh x))) y) =
      finalize (absorb HashState.fresh (x ++ y)) ∧
    ∃ v w, exec (.importState c (serialise (absorb HashState.fresh x))) u = .next v ∧
      exec (.absorb c y) v = .next w ∧ w.ctx c = some (absorb HashState.fresh (x ++ y))

/-- R138 (42_export_import_copy.md): COPY gives the destination the source's value and answers OK; d = s changes
nothing; an index at or above NCTX in either place is an illegal command; and a frame with opcode 0x06 runs it on its
CTX and SRC fields, or is illegal where either is at or above NCTX or LEN is not 0. -/
def Obligations.CopyDuplicatesTheContext : Prop :=
  ∀ (s : State) (d src : CtxIndex),
    (∀ S, d.toNat < s.contexts → s.ctx src = some S →
      exec (.copy d src) s = .next { s with
        ctxs := s.ctxs.set d.toNat S
        rsp := s.rsp ++ [0x00#8, 0x06#8, 0x00#8, 0x00#8] }) ∧
    (d.toNat < s.contexts →
      exec (.copy d d) s = .next { s with rsp := s.rsp ++ [0x00#8, 0x06#8, 0x00#8, 0x00#8] }) ∧
    (s.contexts ≤ d.toNat ∨ s.contexts ≤ src.toNat →
      exec (.copy d src) s = .next { s with rsp := s.rsp ++ [0x03#8, 0x06#8, 0x00#8, 0x00#8] }) ∧
    s.RunsFrames 6 (fun i j len => s.contexts ≤ i ∨ s.contexts ≤ j ∨ len ≠ 0) (fun i j _ => .copy i j)

/-- COPY d, s has the effect on the contexts of IMPORT d of the blob EXPORT s returns, which R138 marks as derived
(42_export_import_copy.md section 4). -/
def Obligations.CopyEqualsExportThenImport : Prop :=
  ∀ (s : State) (d src : CtxIndex) (S : HashState), d.toNat < s.contexts → s.ctx src = some S →
    S.bufferLength ≤ 63 →
    ∃ t u v, exec (.copy d src) s = .next t ∧
      exec (.exportState src) s = .next u ∧
      exec (.importState d (u.rsp.drop (s.rsp.length + 4))) u = .next v ∧ v.ctxs = t.ctxs

/-- R139 (42_export_import_copy.md): after COPY d, s with d different from s, commands that write other contexts than
the original leave the original as it was, and commands that write other contexts than the copy leave the copy. -/
def Obligations.CopiesAreIndependent : Prop :=
  ∀ (s t : State) (d src : CtxIndex) (program : List Instr), d ≠ src → exec (.copy d src) s = .next t →
    ((∀ i ∈ program, writtenContext i ≠ some src) → (execAll program t).ctx src = s.ctx src) ∧
    ((∀ i ∈ program, writtenContext i ≠ some d) → (execAll program t).ctx d = t.ctx d)

/-! ### Rules of the whole machine -/

/-- R38 (10_state.md), as a rule of every step: the number of contexts stays, and a context that the command at the
front of the stream does not write stays. -/
def Obligations.StepWritesOnlyTheNamedContext : Prop :=
  ∀ s t : State, step s = .next t →
    t.contexts = s.contexts ∧
    ∀ c : CtxIndex, (∀ i rest, nextCommand s.cmd = .command i rest → writtenContext i ≠ some c) →
      t.ctx c = s.ctx c

/-- The frame of every command (10_state.md section 8, 60_exceptions.md R186): it appends one response, echoing its
opcode, and leaves the rest of the response stream, the command stream and `rsp_valid` alone; a context it does not
write is unchanged; and when its status is not OK no context changes and no payload is returned. -/
def Obligations.CommandFrame : Prop :=
  ∀ (i : Instr) (s t : State), exec i s = .next t →
    t.cmd = s.cmd ∧ t.rspValid = s.rspValid ∧ t.contexts = s.contexts ∧
    (∀ c : CtxIndex, writtenContext i ≠ some c → t.ctx c = s.ctx c) ∧
    ∃ r : Response, t.rsp = s.rsp ++ r.encode ∧ r.ropc = i.opcode ∧
      (r.status ≠ .ok → t.ctxs = s.ctxs ∧ r.payload = [])

/-- R196 (60_exceptions.md): with indices below NCTX, INIT, ABSORB, FINALIZE, EXPORT and COPY end with OK, for every
state and every payload. -/
def Obligations.FiveCommandsCannotFail : Prop :=
  ∀ (i : Instr) (s : State), i.indicesValid s.contexts = true → (∀ c blob, i ≠ .importState c blob) →
    ∃ t payload, exec i s = .next t ∧
      t.rsp = s.rsp ++ ({ status := .ok, ropc := i.opcode, payload := payload } : Response).encode

/-- An index at or above NCTX makes any of the six commands illegal (30_encoding.md R75, 60_exceptions.md R183, R186):
nothing changes but the response stream. -/
def Obligations.IndexAboveRangeIsIllegal : Prop :=
  ∀ (i : Instr) (s : State), i.indicesValid s.contexts = false →
    exec i s = .next { s with rsp := s.rsp ++ [0x03#8, i.opcode, 0x00#8, 0x00#8] }

/-- R56 (20_memory.md), part of which the spec marks as derived: a command other than ABSORB, repeated, leaves the
contexts as it left them the first time and answers the same bytes; ABSORB of at least one byte never leaves its context
as it was. -/
def Obligations.CommandsAreIdempotentButAbsorb : Prop :=
  (∀ (i : Instr) (s t : State), (∀ c data, i ≠ .absorb c data) → exec i s = .next t →
    ∃ u x, exec i t = .next u ∧ u.ctxs = t.ctxs ∧ t.rsp = s.rsp ++ x ∧ u.rsp = t.rsp ++ x) ∧
  (∀ (s t : State) (c : CtxIndex) (data : List Byte), c.toNat < s.contexts → 0 < data.length →
    data.length ≤ 65535 → exec (.absorb c data) s = .next t → t.ctx c ≠ s.ctx c)

/-- Nothing a command returns, and nothing it writes, depends on a context it does not name (10_state.md R31 and R38,
the first marked as derived): from two states of equally many contexts that agree on the contexts a command names, it
appends the same response and leaves the same value in the context it writes. -/
def Obligations.ResultsDependOnNamedContextsOnly : Prop :=
  ∀ (i : Instr) (s1 s2 t1 t2 : State), s1.contexts = s2.contexts → s1.ctx i.ctx = s2.ctx i.ctx →
    (∀ d src, i = .copy d src → s1.ctx src = s2.ctx src) →
    exec i s1 = .next t1 → exec i s2 = .next t2 →
    t1.ctx i.ctx = t2.ctx i.ctx ∧ ∃ x, t1.rsp = s1.rsp ++ x ∧ t2.rsp = s2.rsp ++ x

/-- R70 (30_encoding.md), as a run: with any number of whole frames on the command stream and an incomplete frame after
them, executing until the engine waits consumes exactly the frames and appends one response frame per command frame,
in the same order, each echoing its frame's opcode byte. -/
def Obligations.OneResponsePerFrameInOrder : Prop :=
  ∀ (s : State) (frames : List (Word × List Byte)) (tail : List Byte),
    (∀ f ∈ frames, f.2.length = f.1.toNat / 2 ^ 16) → nextCommand tail = .waiting →
    s.cmd = (frames.map fun f => le 4 f.1 ++ f.2).flatten ++ tail →
    s.settle.cmd = tail ∧
    ∃ responses : List Response,
      s.settle.rsp = s.rsp ++ (responses.map Response.encode).flatten ∧
      responses.map (fun r => r.ropc.toNat) = frames.map fun f => f.1.toNat % 256

/-! ### The compression function -/

/-- The four round functions bit by bit (43_compress_core.md section 2, which the spec supplies from general
knowledge): F is "if x then y else z", G is "if z then x else y", H is parity, I is y xor (x or not z). -/
def Obligations.RoundFunctionsBitByBit : Prop :=
  ∀ (x y z : Word) (i : Nat), i < 32 →
    (fnF x y z).getLsbD i = (if x.getLsbD i then y.getLsbD i else z.getLsbD i) ∧
    (fnG x y z).getLsbD i = (if z.getLsbD i then x.getLsbD i else y.getLsbD i) ∧
    (fnH x y z).getLsbD i = ((x.getLsbD i).xor ((y.getLsbD i).xor (z.getLsbD i))) ∧
    (fnI x y z).getLsbD i = ((y.getLsbD i).xor (x.getLsbD i || !z.getLsbD i))

/-- Rotation (43_compress_core.md section 2, from general knowledge): bit i becomes bit (i + s) mod 32, for every shift
amount from 1 to 31. -/
def Obligations.RotationMovesEveryBit : Prop :=
  ∀ (v : Word) (s i : Nat), 1 ≤ s → s ≤ 31 → i < 32 →
    (rotl32 v s).getLsbD ((i + s) % 32) = v.getLsbD i

/-- Message words (20_memory.md section 2, from general knowledge in part): word j of a 64-byte block is its bytes 4j to
4j+3 by weight. -/
def Obligations.MessageWordsAreLittleEndian : Prop :=
  ∀ (blk : List Byte) (j : Nat) (b0 b1 b2 b3 : Byte), blk.length = 64 → j < 16 →
    blk[4 * j]? = some b0 → blk[4 * j + 1]? = some b1 → blk[4 * j + 2]? = some b2 → blk[4 * j + 3]? = some b3 →
    (messageWord blk j).toNat = b0.toNat + 2 ^ 8 * b1.toNat + 2 ^ 16 * b2.toNat + 2 ^ 24 * b3.toNat

/-- R151 (43_compress_core.md): Compress reads its block only through the sixteen words. -/
def Obligations.BlockReadOnlyThroughItsWords : Prop :=
  ∀ (acc : Accumulator) (blk blk' : List Byte), (∀ j, j < 16 → messageWord blk j = messageWord blk' j) →
    compress acc blk = compress acc blk'

/-- The whole function (43_compress_core.md section 4, R162, which the spec marks as derived and whose numbers it
supplies from general knowledge): any sequence of working registers that starts with the accumulator and follows the
loop body of R162 for i = 0 to 63 ends in the registers that Compress adds back. -/
def Obligations.CompressFollowsTheLoop : Prop :=
  ∀ (acc : Accumulator) (blk : List Byte) (r : Nat → Accumulator) (f g : Nat → Nat) (fw : Nat → Word),
    r 0 = acc →
    (∀ i, i < 64 → g i = if i ≤ 15 then i else if i ≤ 31 then (5 * i + 1) % 16
      else if i ≤ 47 then (3 * i + 5) % 16 else (7 * i) % 16) →
    (∀ i, i < 64 → f i = if i ≤ 15 then [7, 12, 17, 22].getD (i % 4) 0
      else if i ≤ 31 then [5, 9, 14, 20].getD (i % 4) 0
      else if i ≤ 47 then [4, 11, 16, 23].getD (i % 4) 0 else [6, 10, 15, 21].getD (i % 4) 0) →
    (∀ i, i < 64 → fw i =
      if i ≤ 15 then ((r i).b &&& (r i).c) ||| (~~~(r i).b &&& (r i).d)
      else if i ≤ 31 then ((r i).b &&& (r i).d) ||| ((r i).c &&& ~~~(r i).d)
      else if i ≤ 47 then (r i).b ^^^ (r i).c ^^^ (r i).d
      else (r i).c ^^^ ((r i).b ||| ~~~(r i).d)) →
    (∀ i, i < 64 → (r (i + 1)).a = (r i).d ∧ (r (i + 1)).c = (r i).b ∧ (r (i + 1)).d = (r i).c ∧
      (r (i + 1)).b = (r i).b +
        ((r i).a + fw i + additive i + messageWord blk (g i)).rotateLeft (f i)) →
    compress acc blk =
      { a := acc.a + (r 64).a, b := acc.b + (r 64).b, c := acc.c + (r 64).c, d := acc.d + (r 64).d }

/-! ### The ports -/

/-- R210 and R211 (70_reset_and_hazards.md): in a cycle with `rst` = 1 no byte moves and both engine outputs are 0, and
after it the block is in the reset state, whatever was in progress. -/
def Obligations.ResetPinRestoresTheFreshState : Prop :=
  ∀ (s : State) (i : PinsIn) (p : Pace), i.rst = true →
    (s.pinsOut i p).cmdReady = false ∧ (s.pinsOut i p).rspValid = false ∧
    s.cmdMoved i p = [] ∧ s.rspMoved i p = [] ∧
    s.clock i p = State.resetOf s.contexts

/-- R86 (30_encoding.md): a byte moves exactly in the cycles in which valid and ready are both 1 and `rst` is 0, and an
offered response byte and its valid stay until it moves, whatever the engine chooses and executes meanwhile. When it
raises valid is open (70_reset_and_hazards.md R216): where the last byte of a frame can move and no response is pending,
the engine can choose to offer the response in the next cycle, and can choose not to. -/
def Obligations.HandshakeMovesAndHolds : Prop :=
  ∀ (s : State) (i : PinsIn) (p : Pace), s.Inv →
    (s.cmdMoved i p =
      if i.cmdValid = true ∧ (s.pinsOut i p).cmdReady = true ∧ i.rst = false then [i.cmdData] else []) ∧
    (s.rspMoved i p =
      if (s.pinsOut i p).rspValid = true ∧ i.rspReady = true ∧ i.rst = false then [(s.pinsOut i p).rspData]
      else []) ∧
    (i.rst = false → (s.pinsOut i p).rspValid = true → i.rspReady = false →
      ∀ (i' : PinsIn) (p' : Pace), i'.rst = false →
        ((s.clock i p).pinsOut i' p').rspValid = true ∧
        ((s.clock i p).pinsOut i' p').rspData = (s.pinsOut i p).rspData) ∧
    (i.rst = false → s.rsp = [] → s.waiting = true → i.cmdValid = true →
      nextCommand (s.cmd ++ [i.cmdData]) ≠ .waiting →
      ∃ now later : Pace, s.cmdMoved i now = [i.cmdData] ∧ s.cmdMoved i later = [i.cmdData] ∧
        ∀ (i' : PinsIn) (p' : Pace), i'.rst = false →
          ((s.clock i now).pinsOut i' p').rspValid = true ∧ ((s.clock i later).pinsOut i' p').rspValid = false)

/-- R59 (20_memory.md) down at the ports, with R86: however the engine paces itself and however the host spreads its
bytes and takes responses over the cycles, as long as `rst` stays 0, the response stream (what the host has taken and
what is still to come) and the contexts are those of sending the same bytes at once and waiting. -/
def Obligations.PortScheduleCannotBeObserved : Prop :=
  ∀ (s : State) (cycles : List (PinsIn × Pace)), s.Inv → (∀ x ∈ cycles, x.1.rst = false) →
    let trace := s.runCycles cycles
    trace.received ++ trace.state.settle.rsp = (s.feed trace.sent).settle.rsp ∧
    trace.state.settle.ctxs = (s.feed trace.sent).settle.ctxs ∧
    trace.state.settle.cmd = (s.feed trace.sent).settle.cmd

/-- Back-pressure (70_reset_and_hazards.md R215 item 3): where no response can be emitted, a whole frame waits and the
command queue is full, `cmd_ready` is 0; the pending response bytes stay bounded; and a host that only sends and never
takes a response moves at most so many bytes, however long it tries and whatever the engine chooses. How much the queues
hold is open (log entry 11). -/
def Obligations.BackPressureStallsTheSender : Prop :=
  (∀ (s : State) (i : PinsIn) (p : Pace), s.canEmit = false → s.waiting = false → cmdQueueDepth ≤ s.cmd.length →
    (s.pinsOut i p).cmdReady = false) ∧
  (∀ (s : State) (i : PinsIn) (p : Pace), s.Inv → s.rsp.length ≤ rspQueueDepth + 93 →
    (s.clock i p).rsp.length ≤ rspQueueDepth + 93) ∧
  (∀ s : State, ∃ bound : Nat, ∀ cycles : List (PinsIn × Pace),
    (∀ x ∈ cycles, x.1.rst = false ∧ x.1.rspReady = false) → (s.runCycles cycles).sent.length ≤ bound)

/-- Progress (70_reset_and_hazards.md R217, and 00_scope.md R13 on the end of a run): with a weakly fair engine and a
host that sends a finite program and takes every response byte, every byte is accepted, every frame executed and every
response byte taken after finitely many cycles, and the responses and the contexts are those of executing the program at
once. -/
def Obligations.FairRunsEndWithEveryResponseTaken : Prop :=
  ∀ (s : State) (run : Schedule) (program : List Byte), s.Inv → EngineFair s run → HostSends s run program →
    HostTakes s run → NoReset run →
    ∃ n, ∀ m, n ≤ m →
      (s.trace run m).sent = program ∧ (s.trace run m).received = (s.feed program).settle.rsp ∧
      (s.trace run m).state.ctxs = (s.feed program).settle.ctxs ∧
      (s.trace run m).state.cmd = (s.feed program).settle.cmd ∧ (s.trace run m).state.rsp = []

/-! ### The assembler -/

/-- R82 (30_encoding.md): the assembler refuses exactly an index above 15 or data above 65535 bytes; what it assembles
is well formed, so its frame decodes to it. -/
def Obligations.AssemblerRefusesExactlyMisfits : Prop :=
  (∀ (c : Nat) (data : List Byte),
    ((AsmLine.init c data).assemble = none ↔ 15 < c ∨ 65535 < data.length) ∧
    ((AsmLine.absorb c data).assemble = none ↔ 15 < c ∨ 65535 < data.length) ∧
    ((AsmLine.importState c data).assemble = none ↔ 15 < c ∨ 65535 < data.length) ∧
    ((AsmLine.finalize c).assemble = none ↔ 15 < c) ∧ ((AsmLine.exportState c).assemble = none ↔ 15 < c)) ∧
  (∀ d s : Nat, (AsmLine.copy d s).assemble = none ↔ 15 < d ∨ 15 < s) ∧
  (∀ (l : AsmLine) (i : Instr), l.assemble = some i → i.wellFormed = true)

/-- R83 (30_encoding.md): each pseudo-command is one frame, that of its expansion. -/
def Obligations.PseudoCommandsExpand : Prop :=
  (∀ (c : Nat) (data : List Byte),
    (AsmLine.reset c).assemble = (AsmLine.init c []).assemble ∧
    (AsmLine.nop c).assemble = (AsmLine.absorb c []).assemble ∧
    (AsmLine.update c data).assemble = (AsmLine.absorb c data).assemble) ∧
  (AsmLine.reset 0).assemble.map encode = some [0x01#8, 0x00#8, 0x00#8, 0x00#8] ∧
  (AsmLine.nop 0).assemble.map encode = some [0x02#8, 0x00#8, 0x00#8, 0x00#8]
end

