-- ==== Sys2Proof/Laws/Bytes.lean ====
section
/-! SUPPORT. What the byte-order helpers give: lengths, single bytes, slices of concatenations. -/

namespace Sys2Proof

@[simp] theorem length_le {w : Nat} (n : Nat) (v : BitVec w) : (le n v).length = n := by simp [le]

/-- Byte i of `le(n, v)` is `v[8*i+7 : 8*i]` (00_scope.md R9). -/
theorem getElem?_le {w : Nat} (n : Nat) (v : BitVec w) (i : Nat) (hi : i < n) :
    (le n v)[i]? = some (v.extractLsb' (8 * i) 8) := by
  simp [le, hi]

theorem le_ne_nil {w : Nat} (n : Nat) (v : BitVec w) (hn : 0 < n) : le n v ≠ [] := by
  intro h
  have := congrArg List.length h
  simp at this
  omega

/-- The number of a byte sequence fits its width. -/
theorem unleNat_lt (s : List Byte) : unleNat s < 2 ^ (8 * s.length) := by
  induction s with
  | nil => simp [unleNat]
  | cons b s ih =>
    have hb := b.isLt
    have : (2 : Nat) ^ (8 * (b :: s).length) = 256 * 2 ^ (8 * s.length) := by
      rw [List.length_cons, Nat.mul_add, Nat.pow_add, Nat.mul_comm]
    rw [this]
    simp only [unleNat]
    omega

@[simp] theorem length_slice (s : List Byte) (i j : Nat) : (slice s i j).length = min (j - i) (s.length - i) := by
  simp [slice]

/-- A slice that ends inside the first part is a slice of that part. -/
theorem slice_append_left (s t : List Byte) (i j : Nat) (hj : j ≤ s.length) :
    slice (s ++ t) i j = slice s i j := by
  unfold slice
  rw [List.drop_append, List.take_append_of_le_length]
  · rw [List.length_drop]; omega

/-- A slice that starts behind the first part is a slice of the second. -/
theorem slice_append_right (s t : List Byte) (i j : Nat) (hi : s.length ≤ i) :
    slice (s ++ t) i j = slice t (i - s.length) (j - s.length) := by
  unfold slice
  rw [List.drop_append, List.drop_eq_nil_of_le hi, List.nil_append]
  congr 1
  omega

/-- The slice that is the whole sequence. -/
theorem slice_zero_length (s : List Byte) (n : Nat) (hn : n = s.length) : slice s 0 n = s := by
  subst hn
  simp [slice]

/-- The slice that is the middle part of three. -/
theorem slice_middle (p m q : List Byte) (i j : Nat) (hi : i = p.length) (hj : j = p.length + m.length) :
    slice (p ++ m ++ q) i j = m := by
  subst hi hj
  rw [slice_append_left _ _ _ _ (by simp), slice_append_right _ _ _ _ (by omega)]
  simp [slice]

/-- Bytes of a word put together from two parts: a field of the low part. -/
theorem extract_append_low {v w : Nat} (hi : BitVec v) (lo : BitVec w) (start len : Nat) (h : start + len ≤ w) :
    (hi ++ lo).extractLsb' start len = lo.extractLsb' start len :=
  BitVec.extractLsb'_append_eq_of_add_le h

/-- A field of the high part. -/
theorem extract_append_high {v w : Nat} (hi : BitVec v) (lo : BitVec w) (start len : Nat) (h : w ≤ start) :
    (hi ++ lo).extractLsb' start len = hi.extractLsb' (start - w) len :=
  BitVec.extractLsb'_append_eq_of_le h

/-- The four stream bytes of a word. -/
theorem le_four (v : Word) :
    le 4 v = [v.extractLsb' 0 8, v.extractLsb' 8 8, v.extractLsb' 16 8, v.extractLsb' 24 8] := rfl

/-- The four stream bytes of a header word made of two bytes and a 16-bit length (30_encoding.md R72, R77). -/
theorem le_four_fields (len : BitVec 16) (hi lo : Byte) :
    le 4 (len ++ hi ++ lo) = [lo, hi, len.extractLsb' 0 8, len.extractLsb' 8 8] := by
  rw [le_four]
  congr 1
  · rw [extract_append_low _ _ _ _ (by omega), BitVec.extractLsb'_eq_self]
  congr 1
  · rw [extract_append_high _ _ _ _ (by omega), extract_append_low _ _ _ _ (by omega), BitVec.extractLsb'_eq_self]
  congr 1
  · rw [extract_append_high _ _ _ _ (by omega), extract_append_high _ _ _ _ (by omega)]
  congr 1
  rw [extract_append_high _ _ _ _ (by omega), extract_append_high _ _ _ _ (by omega)]

end Sys2Proof
end

