-- ==== Sys2Proof/Laws/Compress.lean ====
section
/-! SUPPORT. What the block loop of `absorb` leaves (40_construct_absorb.md R102), field by field. -/

namespace Sys2Proof.Machine

/-- The bytes behind the compressed blocks. -/
@[simp] theorem compressBlocks_rest (n : Nat) (acc : Accumulator) (w : List Byte) :
    (compressBlocks n acc w).2 = w.drop (64 * n) := by
  induction n generalizing acc w with
  | zero => simp [compressBlocks]
  | succ n ih => rw [compressBlocks, ih, List.drop_drop]; congr 1; omega

@[simp] theorem absorb_totalLength (S : HashState) (bytes : List Byte) :
    (absorb S bytes).totalLength = S.totalLength + BitVec.ofNat 64 bytes.length := rfl

theorem absorb_acc (S : HashState) (bytes : List Byte) :
    (absorb S bytes).acc =
      (compressBlocks ((S.buffer ++ bytes).length / 64) S.acc (S.buffer ++ bytes)).1 := rfl

theorem absorb_buffer (S : HashState) (bytes : List Byte) :
    (absorb S bytes).buffer = (S.buffer ++ bytes).drop (64 * ((S.buffer ++ bytes).length / 64)) := by
  simp [absorb]

@[simp] theorem fresh_buffer : HashState.fresh.buffer = [] := rfl
@[simp] theorem fresh_totalLength : HashState.fresh.totalLength = 0#64 := rfl
@[simp] theorem fresh_acc : HashState.fresh.acc = Accumulator.initial := rfl

end Sys2Proof.Machine
end

