-- ==== Sys2Proof/Laws/State.lean ====
section
/-! SUPPORT. One lemma per field per update of the state. -/

namespace Sys2Proof.Machine

@[simp] theorem State.setCtx_ctxs (s : State) (c : CtxIndex) (h : HashState) :
    (s.setCtx c h).ctxs = s.ctxs.set c.toNat h := rfl
@[simp] theorem State.setCtx_cmd (s : State) (c : CtxIndex) (h : HashState) : (s.setCtx c h).cmd = s.cmd := rfl
@[simp] theorem State.setCtx_rsp (s : State) (c : CtxIndex) (h : HashState) : (s.setCtx c h).rsp = s.rsp := rfl
@[simp] theorem State.setCtx_rspValid (s : State) (c : CtxIndex) (h : HashState) :
    (s.setCtx c h).rspValid = s.rspValid := rfl

@[simp] theorem State.emit_ctxs (s : State) (r : Response) : (s.emit r).ctxs = s.ctxs := rfl
@[simp] theorem State.emit_cmd (s : State) (r : Response) : (s.emit r).cmd = s.cmd := rfl
@[simp] theorem State.emit_rsp (s : State) (r : Response) : (s.emit r).rsp = s.rsp ++ r.encode := rfl
@[simp] theorem State.emit_rspValid (s : State) (r : Response) : (s.emit r).rspValid = s.rspValid := rfl

@[simp] theorem State.feed_ctxs (s : State) (bs : List Byte) : (s.feed bs).ctxs = s.ctxs := rfl
@[simp] theorem State.feed_cmd (s : State) (bs : List Byte) : (s.feed bs).cmd = s.cmd ++ bs := rfl
@[simp] theorem State.feed_rsp (s : State) (bs : List Byte) : (s.feed bs).rsp = s.rsp := rfl
@[simp] theorem State.feed_rspValid (s : State) (bs : List Byte) : (s.feed bs).rspValid = s.rspValid := rfl

@[simp] theorem State.withCmd_ctxs (s : State) (rest : List Byte) : (s.withCmd rest).ctxs = s.ctxs := rfl
@[simp] theorem State.withCmd_cmd (s : State) (rest : List Byte) : (s.withCmd rest).cmd = rest := rfl
@[simp] theorem State.withCmd_rsp (s : State) (rest : List Byte) : (s.withCmd rest).rsp = s.rsp := rfl
@[simp] theorem State.withCmd_rspValid (s : State) (rest : List Byte) :
    (s.withCmd rest).rspValid = s.rspValid := rfl

@[simp] theorem State.resetOf_ctxs (n : Nat) : (State.resetOf n).ctxs = List.replicate n HashState.fresh := rfl
@[simp] theorem State.resetOf_cmd (n : Nat) : (State.resetOf n).cmd = [] := rfl
@[simp] theorem State.resetOf_rsp (n : Nat) : (State.resetOf n).rsp = [] := rfl
@[simp] theorem State.resetOf_rspValid (n : Nat) : (State.resetOf n).rspValid = false := rfl

@[simp] theorem State.setCtx_contexts (s : State) (c : CtxIndex) (h : HashState) :
    (s.setCtx c h).contexts = s.contexts := by simp [State.contexts]
@[simp] theorem State.emit_contexts (s : State) (r : Response) : (s.emit r).contexts = s.contexts := rfl
@[simp] theorem State.withCmd_contexts (s : State) (rest : List Byte) :
    (s.withCmd rest).contexts = s.contexts := rfl
@[simp] theorem State.resetOf_contexts (n : Nat) : (State.resetOf n).contexts = n := by simp [State.contexts]

@[simp] theorem State.emit_ctx (s : State) (r : Response) (c : CtxIndex) : (s.emit r).ctx c = s.ctx c := rfl
@[simp] theorem State.withCmd_ctx (s : State) (rest : List Byte) (c : CtxIndex) :
    (s.withCmd rest).ctx c = s.ctx c := rfl

/-- A slot can be read exactly where the index is below NCTX. -/
theorem State.ctx_eq_none_iff (s : State) (c : CtxIndex) : s.ctx c = none ↔ s.contexts ≤ c.toNat := by
  simp [State.ctx, State.contexts]

theorem State.ctx_isSome_iff (s : State) (c : CtxIndex) : (∃ S, s.ctx c = some S) ↔ c.toNat < s.contexts := by
  simp [State.ctx, State.contexts, List.getElem?_eq_some_iff]

/-- Reading back the slot just written, where the index is valid. -/
theorem State.setCtx_ctx_self (s : State) (c : CtxIndex) (h : HashState) (hc : c.toNat < s.contexts) :
    (s.setCtx c h).ctx c = some h := by
  simp only [State.ctx, State.setCtx_ctxs]
  exact List.getElem?_set_self hc

/-- Writing one slot leaves every other slot alone (10_state.md R38). -/
theorem State.setCtx_ctx_of_ne (s : State) (c k : CtxIndex) (h : HashState) (hk : k ≠ c) :
    (s.setCtx c h).ctx k = s.ctx k := by
  simp only [State.ctx, State.setCtx_ctxs]
  exact List.getElem?_set_ne fun e => hk (BitVec.eq_of_toNat_eq e.symm)

/-- A property of every slot survives the write of a slot that has it. -/
theorem State.setCtx_forall {P : HashState → Prop} (s : State) (c : CtxIndex) (h : HashState)
    (hs : ∀ S ∈ s.ctxs, P S) (hh : P h) : ∀ S ∈ (s.setCtx c h).ctxs, P S := by
  intro S hS
  rcases List.mem_or_eq_of_mem_set hS with hS | rfl
  · exact hs S hS
  · exact hh

/-- The slot an index names is one of the context file's. -/
theorem State.mem_of_ctx {s : State} {c : CtxIndex} {S : HashState} (h : s.ctx c = some S) : S ∈ s.ctxs :=
  List.mem_of_getElem? h

end Sys2Proof.Machine
end

