-- ==== Sys2Proof/Laws/Ops.lean ====
section
/-! SUPPORT. What each shared operation can do, said once. -/

namespace Sys2Proof.Machine

/-- `complete` answers the state with one OK response appended. -/
theorem complete_eq (opc : Byte) (payload : List Byte) (s : State) :
    complete opc payload s = .next (s.emit { status := .ok, ropc := opc, payload := payload }) := rfl

/-- `raise` answers the state with one error response appended, and nothing else changed. -/
theorem raise_eq (e : Status) (opc : Byte) (s : State) :
    raise e opc s = .next (s.emit { status := e, ropc := opc, payload := [] }) := rfl

/-- On a valid index the command runs on the slot. -/
theorem onContext_of_some (opc : Byte) (c : CtxIndex) (s : State) (k : HashState → Result) (S : HashState)
    (h : s.ctx c = some S) : onContext opc c s k = k S := by
  simp [onContext, h]

/-- On an invalid index the command is illegal. -/
theorem onContext_of_none (opc : Byte) (c : CtxIndex) (s : State) (k : HashState → Result)
    (h : s.ctx c = none) : onContext opc c s k = raise .illegalCommand opc s := by
  simp [onContext, h]

/-- Everything `onContext` can do. -/
theorem onContext_cases (opc : Byte) (c : CtxIndex) (s : State) (k : HashState → Result) :
    (s.ctx c = none ∧ onContext opc c s k = raise .illegalCommand opc s) ∨
    (∃ S, s.ctx c = some S ∧ onContext opc c s k = k S) := by
  cases h : s.ctx c with
  | none => exact .inl ⟨rfl, onContext_of_none opc c s k h⟩
  | some S => exact .inr ⟨S, rfl, onContext_of_some opc c s k S h⟩

/-- The frame of a response without payload, as stream bytes. -/
theorem encode_empty (st : Status) (opc : Byte) :
    ({ status := st, ropc := opc, payload := [] } : Response).encode = [st.code, opc, 0x00#8, 0x00#8] := by
  simp only [Response.encode, Response.header, List.length_nil, List.append_nil]
  rw [le_four_fields]
  rfl

/-! ### Everything a command can do, command by command -/

/-- INIT: an illegal index, or the slot created afresh. -/
theorem execInit_cases (c : CtxIndex) (data : List Byte) (s : State) :
    (s.ctx c = none ∧ execInit c data s = raise .illegalCommand opcInit s) ∨
    (∃ S, s.ctx c = some S ∧
      execInit c data s = complete opcInit [] (s.setCtx c (absorb HashState.fresh data))) :=
  onContext_cases opcInit c s _

/-- ABSORB: an illegal index, or the bytes appended to the slot. -/
theorem execAbsorb_cases (c : CtxIndex) (data : List Byte) (s : State) :
    (s.ctx c = none ∧ execAbsorb c data s = raise .illegalCommand opcAbsorb s) ∨
    (∃ S, s.ctx c = some S ∧ execAbsorb c data s = complete opcAbsorb [] (s.setCtx c (absorb S data))) :=
  onContext_cases opcAbsorb c s _

/-- FINALIZE: an illegal index, or the digest answered. -/
theorem execFinalize_cases (c : CtxIndex) (s : State) :
    (s.ctx c = none ∧ execFinalize c s = raise .illegalCommand opcFinalize s) ∨
    (∃ S, s.ctx c = some S ∧ execFinalize c s = complete opcFinalize (finalize S) s) :=
  onContext_cases opcFinalize c s _

/-- EXPORT: an illegal index, or the blob answered. -/
theorem execExport_cases (c : CtxIndex) (s : State) :
    (s.ctx c = none ∧ execExport c s = raise .illegalCommand opcExport s) ∨
    (∃ S, s.ctx c = some S ∧ execExport c s = complete opcExport (serialise S) s) :=
  onContext_cases opcExport c s _

/-- IMPORT: an illegal index, a wrong size, a bad length byte, or the slot replaced, in this order. -/
theorem execImport_cases (c : CtxIndex) (blob : List Byte) (s : State) :
    (s.ctx c = none ∧ execImport c blob s = raise .illegalCommand opcImport s) ∨
    (∃ S, s.ctx c = some S ∧
      ((blob.length ≠ 89 ∧ execImport c blob s = raise .invalidStateSize opcImport s) ∨
       (blob.length = 89 ∧ 63 < blobBufferLength blob ∧
          execImport c blob s = raise .invalidStateField opcImport s) ∨
       (blob.length = 89 ∧ blobBufferLength blob ≤ 63 ∧
          execImport c blob s = complete opcImport [] (s.setCtx c (deserialise blob))))) := by
  rcases onContext_cases opcImport c s
    (fun _ => if blob.length ≠ blobSize then raise .invalidStateSize opcImport s
      else if 63 < blobBufferLength blob then raise .invalidStateField opcImport s
      else complete opcImport [] (s.setCtx c (deserialise blob))) with h | ⟨S, hS, h⟩
  · exact .inl h
  · refine .inr ⟨S, hS, ?_⟩
    unfold execImport
    rw [h]
    by_cases hn : blob.length = 89
    · by_cases hl : 63 < blobBufferLength blob
      · exact .inr (.inl ⟨hn, hl, by simp [hn, hl, blobSize]⟩)
      · exact .inr (.inr ⟨hn, by omega, by simp [hn, hl, blobSize]⟩)
    · exact .inl ⟨hn, by simp [hn, blobSize]⟩

/-- COPY: an illegal index, or the destination slot given the source slot's value. -/
theorem execCopy_cases (d src : CtxIndex) (s : State) :
    ((s.ctx d = none ∨ s.ctx src = none) ∧ execCopy d src s = raise .illegalCommand opcCopy s) ∨
    (∃ T S, s.ctx d = some T ∧ s.ctx src = some S ∧
      execCopy d src s = complete opcCopy [] (s.setCtx d S)) := by
  cases hd : s.ctx d with
  | none => exact .inl ⟨.inl rfl, by simp [execCopy, onContext, hd]⟩
  | some T =>
    cases hs : s.ctx src with
    | none => exact .inl ⟨.inr rfl, by simp [execCopy, onContext, hd, hs]⟩
    | some S => exact .inr ⟨T, S, rfl, rfl, by simp [execCopy, onContext, hd, hs]⟩

end Sys2Proof.Machine
end

