-- ==== Sys2Proof/Laws/PerInstr.lean ====
section
/-! SUPPORT. Statements for all commands, one lemma per constructor. -/

/-- The frame of a command is its 4-byte header and its payload, and its first byte is the opcode (30_encoding.md R71,
R72, R73). -/
def Sys2Proof.Laws.FrameShape.Statement (i : Sys2Proof.Instr) : Prop :=
  (Sys2Proof.encode i).length = 4 + i.payload.length ∧ (Sys2Proof.encode i)[0]? = some i.opcode

namespace Sys2Proof.Laws.FrameShape

theorem any (i : Instr) : Statement i := by
  refine ⟨by simp [encode], ?_⟩
  rw [encode, List.getElem?_append_left (by simp), getElem?_le 4 _ 0 (by omega), Instr.header, headerWord]
  rw [extract_append_low _ _ _ _ (by omega), BitVec.extractLsb'_eq_self]

theorem init (c : CtxIndex) (data : List Byte) : Statement (.init c data) := any _
theorem absorb (c : CtxIndex) (data : List Byte) : Statement (.absorb c data) := any _
theorem finalize (c : CtxIndex) : Statement (.finalize c) := any _
theorem exportState (c : CtxIndex) : Statement (.exportState c) := any _
theorem importState (c : CtxIndex) (blob : List Byte) : Statement (.importState c blob) := any _
theorem copy (d s : CtxIndex) : Statement (.copy d s) := any _

end Sys2Proof.Laws.FrameShape
end

