-- ==== Sys2Proof/Laws/Step.lean ====
section
/-! SUPPORT. Everything one step can do, said once. -/

namespace Sys2Proof.Machine

/-- A step waits, answers an illegal frame, or executes the command at the front of the stream. -/
theorem step_cases (s : State) :
    (nextCommand s.cmd = .waiting ∧ step s = .next s) ∨
    (∃ why opc rest, nextCommand s.cmd = .illegal why opc rest ∧
      step s = raise .illegalCommand opc (s.withCmd rest)) ∨
    (∃ i rest, nextCommand s.cmd = .command i rest ∧ step s = exec i (s.withCmd rest)) := by
  unfold step
  cases nextCommand s.cmd with
  | waiting => exact .inl ⟨rfl, rfl⟩
  | illegal why opc rest => exact .inr (.inl ⟨why, opc, rest, rfl, rfl⟩)
  | command i rest => exact .inr (.inr ⟨i, rest, rfl, rfl⟩)

/-- `advance` is `step` where it answers a next state. -/
theorem State.advance_of_step {s t : State} (h : step s = .next t) : s.advance = t := by
  simp [State.advance, h]

end Sys2Proof.Machine
end

