-- ==== Sys2Proof/Laws/Ports.lean ====
section
/-! SUPPORT. The clock cycle: one lemma per field per part of it, what the engine's work can do, and runs cut in two. -/

namespace Sys2Proof.Machine

@[simp] theorem State.moveBytes_ctxs (s : State) (i : PinsIn) (p : Pace) : (s.moveBytes i p).ctxs = s.ctxs := rfl
@[simp] theorem State.moveBytes_cmd (s : State) (i : PinsIn) (p : Pace) :
    (s.moveBytes i p).cmd = s.cmd ++ s.cmdMoved i p := rfl
@[simp] theorem State.moveBytes_rsp (s : State) (i : PinsIn) (p : Pace) :
    (s.moveBytes i p).rsp = s.rsp.drop (s.rspMoved i p).length := rfl
@[simp] theorem State.moveBytes_rspValid (s : State) (i : PinsIn) (p : Pace) :
    (s.moveBytes i p).rspValid = (s.rspValid && (s.rspMoved i p).isEmpty) := rfl

@[simp] theorem State.offerNext_ctxs (s : State) (p : Pace) : (s.offerNext p).ctxs = s.ctxs := rfl
@[simp] theorem State.offerNext_cmd (s : State) (p : Pace) : (s.offerNext p).cmd = s.cmd := rfl
@[simp] theorem State.offerNext_rsp (s : State) (p : Pace) : (s.offerNext p).rsp = s.rsp := rfl
@[simp] theorem State.offerNext_rspValid (s : State) (p : Pace) :
    (s.offerNext p).rspValid = (s.rspValid || (p.offer && !s.rsp.isEmpty)) := rfl

/-- A cycle in reset. -/
theorem State.clock_reset (s : State) (i : PinsIn) (p : Pace) (h : i.rst = true) : s.clock i p = s.afterRst :=
  if_pos h

/-- A cycle without reset. -/
theorem State.clock_run (s : State) (i : PinsIn) (p : Pace) (h : i.rst = false) :
    s.clock i p = ((s.moveBytes i p).work p.executions).offerNext p :=
  if_neg (by simp [h])

theorem State.waiting_eq_true_iff (s : State) : s.waiting = true ↔ nextCommand s.cmd = .waiting := by
  unfold State.waiting
  cases nextCommand s.cmd <;> simp

/-- What each execution keeps, the engine's work keeps. -/
theorem State.work_induction {P : State → Prop} (h : ∀ s : State, P s → s.canEmit = true → P s.advance) (n : Nat)
    (s : State) (hs : P s) : P (s.work n) := by
  induction n generalizing s with
  | zero => exact hs
  | succ n ih =>
    rw [State.work]
    split
    · exact ih _ (h s hs ‹_›)
    · exact hs

/-- A run of cycles cut in two. -/
theorem State.runCycles_append (s : State) (front back : List (PinsIn × Pace)) :
    s.runCycles (front ++ back) =
      { sent := (s.runCycles front).sent ++ ((s.runCycles front).state.runCycles back).sent
        received := (s.runCycles front).received ++ ((s.runCycles front).state.runCycles back).received
        state := ((s.runCycles front).state.runCycles back).state } := by
  induction front generalizing s with
  | nil => rfl
  | cons x front ih =>
    obtain ⟨i, p⟩ := x
    simp [State.runCycles, ih]

/-- One cycle more of a schedule. -/
theorem State.trace_succ (s : State) (run : Schedule) (n : Nat) :
    s.trace run (n + 1) =
      { sent := (s.trace run n).sent ++ (s.atCycle run n).cmdMoved (run n).1 (run n).2
        received := (s.trace run n).received ++ (s.atCycle run n).rspMoved (run n).1 (run n).2
        state := (s.atCycle run n).clock (run n).1 (run n).2 } := by
  rw [State.trace, List.range_succ, List.map_append, State.runCycles_append]
  simp [State.runCycles, State.atCycle, State.trace]

end Sys2Proof.Machine
end

