-- ==== Sys2Proof/Tests/Slice0.lean ====
section
/-! SUPPORT. Checks of the model against the spec's own numbers (95_test_vectors.md), a refused term for each check of
WellFormed, and for every statement with hypotheses a state and operands that meet them. A theorem named `test_…` is a
check; one named `witness_…` meets the hypotheses of the statement whose name follows. -/

namespace Sys2Proof.Tests

open Sys2Proof Sys2Proof.Machine

/-- The bytes of "abc". -/
def abc : List Byte := [0x61#8, 0x62#8, 0x63#8]

/-- The context of V-A3: "abc" absorbed. -/
def abcCtx : HashState := { HashState.fresh with totalLength := 3#64, buffer := abc }

/-- A context with `n` bytes of 0x61 buffered and counted. -/
def bufferedCtx (n : Nat) : HashState :=
  { HashState.fresh with totalLength := BitVec.ofNat 64 n, buffer := List.replicate n 0x61#8 }

/-- A reset block of two contexts (V-E3: NCTX = 2). -/
def two : State := State.resetOf 2

/-- Two contexts, "abc" absorbed in the first. -/
def twoAbc : State := { two with ctxs := [abcCtx, HashState.fresh] }

/-- A block of two with these bytes on the command stream. -/
def twoWith (bs : List Byte) : State := two.feed bs

/-- The next state of an outcome, if it is one. -/
def answer (o : Result) : Option State :=
  match o with
  | .next t => some t
  | .fault _ => none
  | .refused _ => none

/-- The 16 bytes of the initial accumulator (V-X1). -/
def initialWords : List Byte :=
  [0x01#8, 0x23#8, 0x45#8, 0x67#8, 0x89#8, 0xab#8, 0xcd#8, 0xef#8,
   0xfe#8, 0xdc#8, 0xba#8, 0x98#8, 0x76#8, 0x54#8, 0x32#8, 0x10#8]

/-- The blob of V-X2. -/
def abcBlob : List Byte :=
  initialWords ++ [0x03#8, 0x00#8, 0x00#8, 0x00#8, 0x00#8, 0x00#8, 0x00#8, 0x00#8] ++ abc
    ++ List.replicate 61 0x00#8 ++ [0x03#8]

/-- 88 zeros and this length byte (V-X6, V-X8). -/
def zeroBlob (last : Byte) : List Byte := List.replicate 88 0x00#8 ++ [last]

/-! ### WellFormed: a term that each check refuses, and the largest it lets through (30_encoding.md R72, R80) -/

theorem test_wellFormed_refuses_long_init (c : CtxIndex) :
    (Instr.init c (List.replicate 65536 0x00#8)).wellFormed = false := by
  simp only [Instr.wellFormed, List.length_replicate]; decide

theorem test_wellFormed_refuses_long_absorb (c : CtxIndex) :
    (Instr.absorb c (List.replicate 65536 0x00#8)).wellFormed = false := by
  simp only [Instr.wellFormed, List.length_replicate]; decide

theorem test_wellFormed_refuses_long_import (c : CtxIndex) :
    (Instr.importState c (List.replicate 65536 0x00#8)).wellFormed = false := by
  simp only [Instr.wellFormed, List.length_replicate]; decide

theorem test_wellFormed_takes_longest_absorb (c : CtxIndex) :
    (Instr.absorb c (List.replicate 65535 0x00#8)).wellFormed = true := by
  simp only [Instr.wellFormed, List.length_replicate]; decide

/-- 30_encoding.md R75: an index equal to NCTX is refused in each of the six commands, in COPY in both places. -/
theorem test_indicesValid_refuses :
    (Instr.init 2 []).indicesValid 2 = false ∧ (Instr.absorb 2 []).indicesValid 2 = false ∧
    (Instr.finalize 2).indicesValid 2 = false ∧ (Instr.exportState 2).indicesValid 2 = false ∧
    (Instr.importState 2 []).indicesValid 2 = false ∧ (Instr.copy 2 1).indicesValid 2 = false ∧
    (Instr.copy 1 2).indicesValid 2 = false ∧ (Instr.copy 1 1).indicesValid 2 = true := by decide

/-! ### Decoding: words written out from R72's fields LEN, SRC, CTX, OPC, and the payload above them -/

theorem test_decode_init :
    decodeTableWord 48 0b011010010110100000000000000000100000001100000001 = some (.init 3 [0x68#8, 0x69#8]) := by
  decide

theorem test_decode_absorb :
    decodeTableWord 40 0b1111111100000000000000010000111100000010 = some (.absorb 15 [0xff#8]) := by decide

theorem test_decode_finalize :
    decodeTableWord 32 0b00000000000000000000000100000011 = some (.finalize 1) := by decide

theorem test_decode_export :
    decodeTableWord 32 0b00000000000000000000001000000100 = some (.exportState 2) := by decide

theorem test_decode_import :
    decodeTableWord 40 0b0011111100000000000000010000000100000101 = some (.importState 1 [0x3f#8]) := by decide

theorem test_decode_copy :
    decodeTableWord 32 0b00000000000000001111001000000110 = some (.copy 2 15) := by decide

/-- Frames that spell no command (V-E3): unknown opcodes, a source in FINALIZE, a payload in COPY. -/
theorem test_decode_illegal :
    nextCommand [0x00#8, 0x00#8, 0x00#8, 0x00#8, 0x55#8] = .illegal .unknownOpcode 0x00#8 [0x55#8] ∧
    nextCommand [0x07#8, 0x00#8, 0x03#8, 0x00#8, 0x78#8, 0x79#8, 0x7a#8] = .illegal .unknownOpcode 0x07#8 [] ∧
    nextCommand [0x03#8, 0x10#8, 0x00#8, 0x00#8] = .illegal .sourceNotZero 0x03#8 [] ∧
    nextCommand [0x06#8, 0x01#8, 0x01#8, 0x00#8, 0x7a#8] = .illegal .payloadNotEmpty 0x06#8 [] := by decide

/-- V-E1. -/
theorem test_encode :
    encode (.init 3 [0x68#8, 0x69#8]) = [0x01#8, 0x03#8, 0x02#8, 0x00#8, 0x68#8, 0x69#8] ∧
    encode (.absorb 15 [0xff#8]) = [0x02#8, 0x0f#8, 0x01#8, 0x00#8, 0xff#8] ∧
    encode (.finalize 1) = [0x03#8, 0x01#8, 0x00#8, 0x00#8] ∧
    encode (.exportState 2) = [0x04#8, 0x02#8, 0x00#8, 0x00#8] ∧
    (encode (.importState 1 abcBlob)).take 5 = [0x05#8, 0x01#8, 0x59#8, 0x00#8, 0x01#8] ∧
    encode (.copy 2 15) = [0x06#8, 0xf2#8, 0x00#8, 0x00#8] := by decide

/-- 00_scope.md R9. -/
theorem test_le_unle :
    le 4 0x67452301#32 = [0x01#8, 0x23#8, 0x45#8, 0x67#8] ∧
    unle 64 [0x18#8, 0x00#8, 0x00#8, 0x00#8, 0x00#8, 0x00#8, 0x00#8, 0x00#8] = 24#64 := by decide

/-! ### Compress (V-C1 to V-C8) -/

/-- V-C6, the third and the sixth row. -/
theorem test_round_functions :
    fnF 0xffffffff 0x12345678 0x9abcdef0 = 0x12345678 ∧ fnG 0xffffffff 0x12345678 0x9abcdef0 = 0x9abcdef8 ∧
    fnH 0xffffffff 0x12345678 0x9abcdef0 = 0x77777777 ∧ fnI 0xffffffff 0x12345678 0x9abcdef0 = 0xedcba987 ∧
    fnF 0x0f0f0f0f 0x33333333 0x55555555 = 0x53535353 ∧ fnG 0x0f0f0f0f 0x33333333 0x55555555 = 0x27272727 ∧
    fnH 0x0f0f0f0f 0x33333333 0x55555555 = 0x69696969 ∧ fnI 0x0f0f0f0f 0x33333333 0x55555555 = 0x9c9c9c9c := by
  decide

/-- V-C7. -/
theorem test_rotl32 :
    rotl32 0x00000001 7 = 0x00000080 ∧ rotl32 0x80000000 1 = 0x00000001 ∧ rotl32 0x12345678 4 = 0x23456781 ∧
    rotl32 0x12345678 23 = 0x3c091a2b ∧ rotl32 0xffffffff 22 = 0xffffffff ∧
    rotl32 0x80000001 16 = 0x00018000 := by decide

/-- V-C8: step 0 on the block of the empty message. -/
theorem test_compress_step :
    compressStep (messageWord (0x80#8 :: List.replicate 63 0x00#8)) Accumulator.initial 0 =
      ⟨0x10325476, 0xa5202774, 0xefcdab89, 0x98badcfe⟩ := by decide

/-- V-C5: an accumulator and a block that no message gives, every message word different. -/
theorem test_compress_counting_block :
    compress ⟨0, 0, 0, 0⟩ ((List.range 64).map (BitVec.ofNat 8)) =
      ⟨0x726c284d, 0xc54d0f2b, 0xd8a008e8, 0x45303b78⟩ := by decide +kernel

/-- V-C4. -/
theorem test_compress_all_ones :
    compress ⟨0xffffffff, 0xffffffff, 0xffffffff, 0xffffffff⟩ (List.replicate 64 0xff#8) =
      ⟨0x6cba9129, 0x29ffd12a, 0x8b9bb7d3, 0xa9a0a3c1⟩ := by decide +kernel

/-! ### The six commands -/

/-- V-A10: INIT discards what the context held; the response is `00 01 00 00`. -/
theorem test_init_discards :
    answer (exec (.init 0 abc) { two with ctxs := [bufferedCtx 1, HashState.fresh] }) =
      some { twoAbc with rsp := [0x00#8, 0x01#8, 0x00#8, 0x00#8] } := by decide

/-- The frame `01 02 00 00` in a block of two: the index is too large. -/
theorem test_init_illegal_index :
    answer (step (twoWith [0x01#8, 0x02#8, 0x00#8, 0x00#8])) =
      some { two with rsp := [0x03#8, 0x01#8, 0x00#8, 0x00#8] } := by decide

/-- 40_construct_absorb.md R101's example: the frame `02 00 01 00 64` after "abc". -/
theorem test_absorb_appends :
    answer (step (twoAbc.feed [0x02#8, 0x00#8, 0x01#8, 0x00#8, 0x64#8])) =
      some { two with
        ctxs := [{ HashState.fresh with totalLength := 4#64, buffer := abc ++ [0x64#8] }, HashState.fresh]
        rsp := [0x00#8, 0x02#8, 0x00#8, 0x00#8] } := by decide

/-- V-A5: a full block is consumed at once. -/
theorem test_absorb_full_block :
    absorb HashState.fresh (List.replicate 64 0x61#8) =
      { acc := ⟨0x89d4ff56, 0x125cd962, 0x69cade33, 0x0033e325⟩, totalLength := 64, buffer := [] } := by
  decide +kernel

/-- S2, V-F2: the frame `03 00 00 00` after "abc"; the context is not written. -/
theorem test_finalize_abc :
    answer (step (twoAbc.feed [0x03#8, 0x00#8, 0x00#8, 0x00#8])) =
      some { twoAbc with
        rsp := [0x00#8, 0x03#8, 0x10#8, 0x00#8,
          0x90#8, 0x01#8, 0x50#8, 0x98#8, 0x3c#8, 0xd2#8, 0x4f#8, 0xb0#8,
          0xd6#8, 0x96#8, 0x3f#8, 0x7d#8, 0x28#8, 0xe1#8, 0x7f#8, 0x72#8] } := by decide +kernel

/-- V-F3: 56 buffered bytes need two final blocks. -/
theorem test_finalize_two_blocks :
    finalize (bufferedCtx 56) =
      [0x3b#8, 0x0c#8, 0x8a#8, 0xc7#8, 0x03#8, 0xf8#8, 0x28#8, 0xb0#8,
       0x4c#8, 0x6c#8, 0x19#8, 0x70#8, 0x06#8, 0xd1#8, 0x72#8, 0x18#8] := by decide +kernel

/-- V-X2 and 42_export_import_copy.md R130's example: the frame `04 00 00 00` after "abc". -/
theorem test_export_abc :
    answer (step (twoAbc.feed [0x04#8, 0x00#8, 0x00#8, 0x00#8])) =
      some { twoAbc with rsp := [0x00#8, 0x04#8, 0x59#8, 0x00#8] ++ abcBlob } := by decide

/-- `04 01 01 00 00`: EXPORT with a payload is illegal and the payload is consumed. -/
theorem test_export_with_payload :
    answer (step (twoWith [0x04#8, 0x01#8, 0x01#8, 0x00#8, 0x00#8])) =
      some { two with rsp := [0x03#8, 0x04#8, 0x00#8, 0x00#8] } := by decide

/-- V-X7: every field from its place, the 0xff filler not kept. -/
theorem test_import_all_ones :
    answer (exec (.importState 0 (List.replicate 88 0xff#8 ++ [0x00#8])) two) =
      some { two with
        ctxs := [{ acc := ⟨0xffffffff, 0xffffffff, 0xffffffff, 0xffffffff⟩
                   totalLength := 0xffffffffffffffff, buffer := [] }, HashState.fresh]
        rsp := [0x00#8, 0x05#8, 0x00#8, 0x00#8] } := by decide

/-- V-X8 and V-E3: a length byte of 64, a size of 90 whose byte 88 is not looked at, and a context that wins over the
size. -/
theorem test_import_errors :
    answer (exec (.importState 0 (zeroBlob 0x40#8)) two) =
      some { two with rsp := [0x04#8, 0x05#8, 0x00#8, 0x00#8] } ∧
    answer (exec (.importState 0 (zeroBlob 0xff#8 ++ [0x00#8])) two) =
      some { two with rsp := [0x01#8, 0x05#8, 0x00#8, 0x00#8] } ∧
    answer (exec (.importState 2 (List.replicate 88 0x00#8)) two) =
      some { two with rsp := [0x03#8, 0x05#8, 0x00#8, 0x00#8] } := by decide

/-- V-X9: the frame `06 01 00 00` copies context 0 into context 1. -/
theorem test_copy :
    answer (step (twoAbc.feed [0x06#8, 0x01#8, 0x00#8, 0x00#8])) =
      some { two with ctxs := [abcCtx, abcCtx], rsp := [0x00#8, 0x06#8, 0x00#8, 0x00#8] } := by decide

/-- V-E3: the frame `06 21 00 00`, COPY 1, 2 in a block of two. -/
theorem test_copy_illegal_source :
    answer (step (twoWith [0x06#8, 0x21#8, 0x00#8, 0x00#8])) =
      some { two with rsp := [0x03#8, 0x06#8, 0x00#8, 0x00#8] } := by decide

/-- V-E3: opcode 0x07 with three payload bytes, which are consumed. -/
theorem test_illegal_frame_is_consumed :
    answer (step (twoWith [0x07#8, 0x00#8, 0x03#8, 0x00#8, 0x78#8, 0x79#8, 0x7a#8, 0x02#8])) =
      some { two with cmd := [0x02#8], rsp := [0x03#8, 0x07#8, 0x00#8, 0x00#8] } := by decide

/-- 70_reset_and_hazards.md R213: FINALIZE 0 as the very first command after reset runs and answers 20 bytes, whatever
NCTX is. -/
theorem test_first_command_runs :
    ∃ t, step (State.reset.withFetchWord 32 0x00000003) = .next t ∧ t.rsp.take 4 = [0x00#8, 0x03#8, 0x10#8, 0x00#8] :=
  ⟨_, rfl, by decide +kernel⟩

/-! ### The ports -/

/-- 30_encoding.md R86: an offered byte moves when the host is ready, a command byte moves in the same cycle, and with
`rst` 1 nothing moves. -/
theorem test_handshake :
    let s : State := { two with rsp := [0x00#8, 0x01#8], rspValid := true }
    let i : PinsIn := { rst := false, cmdValid := true, cmdData := 0x04#8, rspReady := true }
    let p : Pace := { ready := true, executions := 0, offer := false, idleData := 0xaa#8 }
    s.clock i p = { two with cmd := [0x04#8], rsp := [0x01#8], rspValid := false } ∧
    s.rspMoved i p = [0x00#8] ∧ s.clock { i with rst := true } p = two := by decide

/-- 30_encoding.md R86, 70_reset_and_hazards.md R216: the last byte of COPY 1, 0 moves, the engine executes it in that
cycle, and `rsp_valid` is 1 in the next. -/
theorem test_answer_in_the_next_cycle :
    (twoWith [0x06#8, 0x01#8, 0x00#8]).clock
        { rst := false, cmdValid := true, cmdData := 0x00#8, rspReady := false }
        { ready := true, executions := 1, offer := true, idleData := 0x00#8 } =
      { two with rsp := [0x00#8, 0x06#8, 0x00#8, 0x00#8], rspValid := true } := by decide

/-! ### The assembler (30_encoding.md R82, R83, V-E1) -/

/-- `INIT 3, "hi"`. -/
theorem test_assemble_init_quoted :
    assembleLine (['I', 'N', 'I', 'T', ' ', '3', ',', ' ', quoteChar, 'h', 'i', quoteChar]) =
      some [0x01#8, 0x03#8, 0x02#8, 0x00#8, 0x68#8, 0x69#8] := by decide

/-- `ABSORB 0, 2*x"fF" ;`. -/
theorem test_assemble_repetition :
    assembleLine (['A', 'B', 'S', 'O', 'R', 'B', ' ', '0', ',', ' ', '2', '*', 'x', quoteChar, 'f', 'F', quoteChar,
        ' ', ';']) =
      some [0x02#8, 0x00#8, 0x02#8, 0x00#8, 0xff#8, 0xff#8] := by decide

/-- `COPY 2, 15`, `COPY 2, 16` (refused), `RESET 0`, `NOP 0`. -/
theorem test_assemble_copy_and_pseudo :
    assembleLine (['C', 'O', 'P', 'Y', ' ', '2', ',', ' ', '1', '5']) = some [0x06#8, 0xf2#8, 0x00#8, 0x00#8] ∧
    assembleLine (['C', 'O', 'P', 'Y', ' ', '2', ',', ' ', '1', '6']) = none ∧
    assembleLine (['R', 'E', 'S', 'E', 'T', ' ', '0']) = some [0x01#8, 0x00#8, 0x00#8, 0x00#8] ∧
    assembleLine (['N', 'O', 'P', ' ', '0']) = some [0x02#8, 0x00#8, 0x00#8, 0x00#8] := by decide

/-! ### Witnesses: a state and operands that meet the hypotheses of each statement, clause by clause -/

/-- The host drives nothing but `rst` = 0. -/
def idlePins : PinsIn := { rst := false, cmdValid := false, cmdData := 0x00#8, rspReady := false }

/-- The engine executes. -/
def execPace : Pace := { ready := true, executions := 1, offer := true, idleData := 0x00#8 }

theorem inv_two : two.Inv := by unfold State.Inv; decide

/-- A frame of header `h` with opcode `opc` at the front of the stream of a block of two, one byte behind it. -/
def AtFront (h : Word) (payload : List Byte) (opc : Nat) : Prop :=
  (twoWith (le 4 h ++ payload ++ [0x01#8])).cmd = le 4 h ++ payload ++ [0x01#8] ∧
  payload.length = h.toNat / 2 ^ 16 ∧ h.toNat % 256 = opc

/-- The premises of `State.RunsFrames` for INIT, in the order: a legal frame on the last context, an index equal to
NCTX, a source that is not 0. -/
theorem witness_InitCreatesTheContextAfresh_frames :
    (AtFront 0x00030101#32 abc 1 ∧ ¬(2 ≤ 0x00030101 / 2 ^ 8 % 16 ∨ 0x00030101 / 2 ^ 12 % 16 ≠ 0)) ∧
    (AtFront 0x00000201#32 [] 1 ∧ 2 ≤ 0x00000201 / 2 ^ 8 % 16) ∧
    (AtFront 0x00001001#32 [] 1 ∧ 0x00001001 / 2 ^ 12 % 16 ≠ 0) := by unfold AtFront; decide

theorem witness_AbsorbAppendsToTheContext_frames :
    (AtFront 0x00030102#32 abc 2 ∧ ¬(2 ≤ 0x00030102 / 2 ^ 8 % 16 ∨ 0x00030102 / 2 ^ 12 % 16 ≠ 0)) ∧
    (AtFront 0x00000202#32 [] 2 ∧ 2 ≤ 0x00000202 / 2 ^ 8 % 16) ∧
    (AtFront 0x0000f002#32 [] 2 ∧ 0x0000f002 / 2 ^ 12 % 16 ≠ 0) := by unfold AtFront; decide

/-- For FINALIZE and EXPORT also a payload of one byte. -/
theorem witness_FinalizeAnswersTheDigest_frames :
    (AtFront 0x00000103#32 [] 3 ∧
      ¬(2 ≤ 0x00000103 / 2 ^ 8 % 16 ∨ 0x00000103 / 2 ^ 12 % 16 ≠ 0 ∨ ([] : List Byte).length ≠ 0)) ∧
    (AtFront 0x00000203#32 [] 3 ∧ 2 ≤ 0x00000203 / 2 ^ 8 % 16) ∧
    (AtFront 0x00001003#32 [] 3 ∧ 0x00001003 / 2 ^ 12 % 16 ≠ 0) ∧
    (AtFront 0x00010003#32 [0x71#8] 3 ∧ [0x71#8].length ≠ 0) := by unfold AtFront; decide

theorem witness_ExportAnswersTheBlob_frames :
    (AtFront 0x00000104#32 [] 4 ∧
      ¬(2 ≤ 0x00000104 / 2 ^ 8 % 16 ∨ 0x00000104 / 2 ^ 12 % 16 ≠ 0 ∨ ([] : List Byte).length ≠ 0)) ∧
    (AtFront 0x00000204#32 [] 4 ∧ 2 ≤ 0x00000204 / 2 ^ 8 % 16) ∧
    (AtFront 0x00001004#32 [] 4 ∧ 0x00001004 / 2 ^ 12 % 16 ≠ 0) ∧
    (AtFront 0x00010004#32 [0x71#8] 4 ∧ [0x71#8].length ≠ 0) := by unfold AtFront; decide

theorem witness_ImportChecksInOrderThenInstalls_frames :
    (AtFront 0x00590105#32 abcBlob 5 ∧ ¬(2 ≤ 0x00590105 / 2 ^ 8 % 16 ∨ 0x00590105 / 2 ^ 12 % 16 ≠ 0)) ∧
    (AtFront 0x00000205#32 [] 5 ∧ 2 ≤ 0x00000205 / 2 ^ 8 % 16) ∧
    (AtFront 0x00001005#32 [] 5 ∧ 0x00001005 / 2 ^ 12 % 16 ≠ 0) := by unfold AtFront; decide

/-- For COPY a destination and a source equal to NCTX, and a payload of one byte. -/
theorem witness_CopyDuplicatesTheContext_frames :
    (AtFront 0x00001006#32 [] 6 ∧
      ¬(2 ≤ 0x00001006 / 2 ^ 8 % 16 ∨ 2 ≤ 0x00001006 / 2 ^ 12 % 16 ∨ ([] : List Byte).length ≠ 0)) ∧
    (AtFront 0x00000206#32 [] 6 ∧ 2 ≤ 0x00000206 / 2 ^ 8 % 16) ∧
    (AtFront 0x00002106#32 [] 6 ∧ 2 ≤ 0x00002106 / 2 ^ 12 % 16) ∧
    (AtFront 0x00010106#32 [0x7a#8] 6 ∧ [0x7a#8].length ≠ 0) := by unfold AtFront; decide

theorem witness_ResetLeavesEveryContextFresh :
    (1 ≤ 1 ∧ 1 ≤ 16 ∧ (0#4).toNat < 1) ∧ (1 ≤ 16 ∧ 16 ≤ 16 ∧ (15#4).toNat < 16) := by decide

theorem witness_EveryStepKeepsTheInvariant :
    ∃ s t : State, s.Inv ∧ step s = .next t ∧ t ≠ s :=
  ⟨twoWith [0x06#8, 0x01#8, 0x00#8, 0x00#8], _, by unfold State.Inv; decide, rfl, by decide⟩

/-- The second clause, in a state that offers a byte and holds a full-length buffer. -/
theorem witness_EveryStepKeepsTheInvariant_clock :
    State.Inv { ctxs := [bufferedCtx 63], cmd := [], rsp := [0x00#8], rspValid := true } := by
  unfold State.Inv; decide

theorem witness_StepKeepsCoherence_absorb : (bufferedCtx 63).Coherent := by
  unfold HashState.Coherent; decide

theorem witness_StepKeepsCoherence :
    ∃ s t : State, s.Coherent ∧
      (∀ c blob rest, nextCommand s.cmd ≠ .command (.importState c blob) rest) ∧ step s = .next t := by
  refine ⟨twoWith [0x06#8, 0x01#8, 0x00#8, 0x00#8], _, by unfold State.Coherent HashState.Coherent; decide,
    fun c blob rest h => ?_, rfl⟩
  have : nextCommand (twoWith [0x06#8, 0x01#8, 0x00#8, 0x00#8]).cmd = .command (.copy 1 0) [] := by decide
  rw [this] at h
  cases h

theorem witness_UnleInvertsLe : abc.length = 3 ∧ ([] : List Byte).length = 0 := by decide

theorem witness_DecodeOfEncodeIsTheCommand :
    (Instr.absorb 15 (List.replicate 65535 0x00#8)).wellFormed = true ∧ (Instr.finalize 0).wellFormed = true :=
  ⟨test_wellFormed_takes_longest_absorb 15, rfl⟩

theorem witness_EncodeOfDecodeIsTheFrame :
    nextCommand [0x01#8, 0x00#8, 0x01#8, 0x00#8, 0x61#8, 0x03#8] = .command (.init 0 [0x61#8]) [0x03#8] := by decide

/-- The shortest frame and an illegal one with payload. -/
theorem witness_FrameLengthDependsOnLenAlone :
    ([] : List Byte).length = (0x00000003#32).toNat / 2 ^ 16 ∧ abc.length = (0x00030007#32).toNat / 2 ^ 16 ∧
    takeFrame [0x07#8, 0x00#8, 0x01#8, 0x00#8, 0x61#8, 0x62#8] =
      some ({ header := 0x00010007#32, payload := [0x61#8] }, [0x62#8]) := by decide

theorem witness_StepRunsTheDecodedCommand :
    nextCommand (twoWith [0x06#8, 0x01#8, 0x00#8, 0x00#8]).cmd = .command (.copy 1 0) [] := by decide

/-- An illegal header: context 2 of two. -/
theorem witness_StepFollowsTheDecodeProcedure_illegal :
    (twoWith (le 4 0x00000203#32)).cmd = le 4 0x00000203#32 ++ [] ++ [] ∧
    ([] : List Byte).length = (0x00000203#32).toNat / 2 ^ 16 ∧
    illegalHeader (twoWith (le 4 0x00000203#32)).contexts 0x00000203#32 := by
  unfold illegalHeader; decide

/-- A legal header: ABSORB to the last context, with payload and bytes after the frame. -/
theorem witness_StepFollowsTheDecodeProcedure_legal :
    (twoWith (le 4 0x00030102#32 ++ abc ++ [0x03#8])).cmd = le 4 0x00030102#32 ++ abc ++ [0x03#8] ∧
    abc.length = (0x00030102#32).toNat / 2 ^ 16 ∧
    ¬ illegalHeader (twoWith (le 4 0x00030102#32 ++ abc ++ [0x03#8])).contexts 0x00030102#32 := by
  unfold illegalHeader; decide

/-- Three header bytes; a whole header with its payload one byte short. -/
theorem witness_IncompleteFrameWaits :
    (twoWith [0x02#8, 0x00#8, 0x03#8]).cmd.length < 4 ∧
    (twoWith (le 4 0x00030002#32 ++ [0x61#8, 0x62#8])).cmd = le 4 0x00030002#32 ++ [0x61#8, 0x62#8] ∧
    [0x61#8, 0x62#8].length < (0x00030002#32).toNat / 2 ^ 16 := by decide

theorem witness_ResponseFramesParse :
    ({ status := .ok, ropc := opcExport, payload := List.replicate 65535 0x00#8 } : Response).payload.length
      ≤ 65535 := by simp only [List.length_replicate]; decide

theorem witness_EveryStepAnswersOneListedResponse :
    ∃ s t : State, s.Inv ∧ step s = .next t ∧ t ≠ s :=
  witness_EveryStepKeepsTheInvariant

/-- The last valid index and the first invalid one. -/
theorem witness_InitCreatesTheContextAfresh : (1#4).toNat < two.contexts ∧ two.contexts ≤ (2#4).toNat := by decide

theorem witness_InitWithDataIsInitThenAbsorb : (1#4).toNat < two.contexts := by decide

theorem witness_AbsorbAppendsToTheContext :
    two.ctx 1 = some HashState.fresh ∧ two.contexts ≤ (2#4).toNat := by decide

/-- 63 bytes buffered and 65 more: two blocks and no rest. -/
theorem witness_AbsorbChainsWholeBlocks :
    AllBlocks [List.replicate 64 0x61#8, List.replicate 64 0x61#8] ∧ ([] : List Byte).length < 64 ∧
    (bufferedCtx 63).buffer ++ List.replicate 65 0x61#8 =
      [List.replicate 64 0x61#8, List.replicate 64 0x61#8].flatten ++ [] := by
  unfold AllBlocks; decide

/-- 63 bytes buffered and none more: no block and a rest of 63. -/
theorem witness_AbsorbChainsWholeBlocks_none :
    AllBlocks [] ∧ (List.replicate 63 0x61#8).length < 64 ∧
    (bufferedCtx 63).buffer ++ [] = ([] : List (List Byte)).flatten ++ List.replicate 63 0x61#8 := by
  unfold AllBlocks; decide

theorem witness_AbsorbOfNothingIsNoChange :
    (bufferedCtx 63).bufferLength ≤ 63 ∧ twoAbc.ctx 0 = some abcCtx ∧ abcCtx.bufferLength ≤ 63 := by decide

theorem witness_LongInputSplitsIntoAbsorbs : twoAbc.ctx 0 = some abcCtx ∧ abcCtx.bufferLength ≤ 63 := by decide

theorem witness_DigestIndependentOfTheSplit : 0 ≤ abc.length ∧ 3 ≤ abc.length := by decide

/-- A counter one below the wrap (V-X10). -/
theorem witness_CounterWraps :
    State.ctx { two with ctxs := [{ HashState.fresh with totalLength := 0xffffffffffffffff#64 }] } 0 =
      some { HashState.fresh with totalLength := 0xffffffffffffffff#64 } := by decide

theorem witness_AccumulatorWaitsForABlock : (bufferedCtx 60).bufferLength + abc.length < 64 := by decide

theorem witness_ByteSerialFormAgrees : (bufferedCtx 63).bufferLength ≤ 63 := by decide

theorem witness_FinalizeAnswersTheDigest : twoAbc.ctx 0 = some abcCtx ∧ twoAbc.contexts ≤ (2#4).toNat := by decide

/-- k = 0 at 55 bytes, k = 63 at 56 (41_finalize.md R124). -/
theorem witness_PaddingAsRuled :
    (0 < 64 ∧ ((bufferedCtx 55).bufferLength + 1 + 0) % 64 = 56) ∧
    (63 < 64 ∧ ((bufferedCtx 56).bufferLength + 1 + 63) % 64 = 56) ∧ (bufferedCtx 55).bufferLength ≤ 55 ∧
    56 ≤ (bufferedCtx 56).bufferLength ∧ (bufferedCtx 63).bufferLength ≤ 63 := by decide

theorem witness_PaddedTailIsOneOrTwoBlocks :
    (bufferedCtx 55).bufferLength ≤ 55 ∧
    (56 ≤ (bufferedCtx 56).bufferLength ∧ (bufferedCtx 56).bufferLength ≤ 63) ∧
    (56 ≤ (bufferedCtx 63).bufferLength ∧ (bufferedCtx 63).bufferLength ≤ 63) := by decide

/-- One final block (V-F2). -/
theorem witness_FinalizeChainsThePaddedTail_one :
    abcCtx.bufferLength ≤ 63 ∧ AllBlocks [abcCtx.buffer ++ pad abcCtx] ∧
    abcCtx.buffer ++ pad abcCtx = [abcCtx.buffer ++ pad abcCtx].flatten := by
  unfold AllBlocks; decide

/-- Two final blocks (V-F3). -/
theorem witness_FinalizeChainsThePaddedTail_two :
    (bufferedCtx 56).bufferLength ≤ 63 ∧
    AllBlocks [List.replicate 56 0x61#8 ++ [0x80#8] ++ List.replicate 7 0x00#8,
      List.replicate 56 0x00#8 ++ [0xc0#8, 0x01#8] ++ List.replicate 6 0x00#8] ∧
    (bufferedCtx 56).buffer ++ pad (bufferedCtx 56) =
      [List.replicate 56 0x61#8 ++ [0x80#8] ++ List.replicate 7 0x00#8,
        List.replicate 56 0x00#8 ++ [0xc0#8, 0x01#8] ++ List.replicate 6 0x00#8].flatten := by
  unfold AllBlocks; decide

theorem witness_DigestByteOrder : (0 < 4 ∧ 0 < 4) ∧ 3 < 4 ∧ 3 < 4 := by decide

/-- The one block of "abc" (V-C2). -/
theorem witness_DigestIsTheMd5OfTheMessage :
    AllBlocks [abc ++ [0x80#8] ++ List.replicate 52 0x00#8 ++ [0x18#8] ++ List.replicate 7 0x00#8] ∧
    [abc ++ [0x80#8] ++ List.replicate 52 0x00#8 ++ [0x18#8] ++ List.replicate 7 0x00#8].flatten =
      paddedMessage abc := by
  unfold AllBlocks; decide

theorem witness_ExportAnswersTheBlob :
    twoAbc.ctx 0 = some abcCtx ∧ abcCtx.bufferLength ≤ 63 ∧ twoAbc.contexts ≤ (2#4).toNat := by decide

theorem witness_BlobLayout :
    HashState.fresh.bufferLength ≤ 63 ∧ (bufferedCtx 63).bufferLength ≤ 63 ∧
    ∃ S T : HashState, S.bufferLength ≤ 63 ∧ T.bufferLength ≤ 63 ∧ serialise S = serialise T :=
  ⟨by decide, by decide, abcCtx, abcCtx, by decide, by decide, rfl⟩

/-- The longest buffer with one filler byte, the empty one with 64. -/
theorem witness_DeserialiseDecodesTheLayout :
    ((List.replicate 63 0x61#8).length ≤ 63 ∧ [0xee#8].length = 64 - (List.replicate 63 0x61#8).length) ∧
    (([] : List Byte).length ≤ 63 ∧ (List.replicate 64 0xee#8).length = 64 - ([] : List Byte).length) := by decide

/-- Each clause at its boundary: context 2 of two; 88 and 90 bytes; length bytes 64 and 255; length bytes 63 and 0. -/
theorem witness_ImportChecksInOrderThenInstalls :
    two.contexts ≤ (2#4).toNat ∧
    ((1#4).toNat < two.contexts ∧ (List.replicate 88 0x00#8).length ≠ 89 ∧
      (List.replicate 90 0x00#8).length ≠ 89) ∧
    ((zeroBlob 0x40#8).length = 89 ∧ (zeroBlob 0x40#8)[88]? = some 0x40#8 ∧ 64 ≤ (0x40#8).toNat) ∧
    ((zeroBlob 0xff#8).length = 89 ∧ (zeroBlob 0xff#8)[88]? = some 0xff#8 ∧ 64 ≤ (0xff#8).toNat) ∧
    ((zeroBlob 0x3f#8).length = 89 ∧ (zeroBlob 0x3f#8)[88]? = some 0x3f#8 ∧ (0x3f#8).toNat ≤ 63) ∧
    ((zeroBlob 0x00#8).length = 89 ∧ (zeroBlob 0x00#8)[88]? = some 0x00#8 ∧ (0x00#8).toNat ≤ 63) := by decide

theorem witness_ImportAfterExportIsIdentity : (bufferedCtx 63).bufferLength ≤ 63 := by decide

theorem witness_ExportAfterImportNormalisesFiller :
    (zeroBlob 0x3f#8).length = 89 ∧ (zeroBlob 0x3f#8)[88]? = some 0x3f#8 ∧ (0x3f#8).toNat ≤ 63 := by decide

theorem witness_CheckpointResumesExactly : (1#4).toNat < two.contexts := by decide

/-- The three clauses: two valid indices; one; an invalid destination, an invalid source. -/
theorem witness_CopyDuplicatesTheContext :
    ((1#4).toNat < twoAbc.contexts ∧ twoAbc.ctx 0 = some abcCtx) ∧
    (twoAbc.contexts ≤ (2#4).toNat ∨ twoAbc.contexts ≤ (0#4).toNat) ∧
    (twoAbc.contexts ≤ (1#4).toNat ∨ twoAbc.contexts ≤ (2#4).toNat) := by decide

theorem witness_CopyEqualsExportThenImport :
    (1#4).toNat < twoAbc.contexts ∧ twoAbc.ctx 0 = some abcCtx ∧ abcCtx.bufferLength ≤ 63 := by decide

/-- A program that writes the copy, then one that writes the original (program P3's shape). -/
theorem witness_CopiesAreIndependent :
    (1#4) ≠ (0#4) ∧ (∃ t, exec (.copy 1 0) twoAbc = .next t) ∧
    (∀ i ∈ [Instr.absorb 1 abc, Instr.init 1 []], writtenContext i ≠ some 0#4) ∧
    (∀ i ∈ [Instr.absorb 0 abc, Instr.finalize 1], writtenContext i ≠ some 1#4) :=
  ⟨by decide, ⟨_, rfl⟩, by decide, by decide⟩

theorem witness_StepWritesOnlyTheNamedContext :
    ∃ s t : State, step s = .next t ∧ t ≠ s ∧
      ∀ i rest, nextCommand s.cmd = .command i rest → writtenContext i ≠ some 0#4 := by
  refine ⟨twoWith [0x06#8, 0x01#8, 0x00#8, 0x00#8], _, rfl, by decide, fun i rest h => ?_⟩
  have : nextCommand (twoWith [0x06#8, 0x01#8, 0x00#8, 0x00#8]).cmd = .command (.copy 1 0) [] := by decide
  rw [this] at h
  cases h
  decide

/-- One command that completes and one that fails. -/
theorem witness_CommandFrame :
    (∃ t, exec (.absorb 0 abc) two = .next t) ∧ (∃ t, exec (.importState 0 abc) two = .next t) ∧
    writtenContext (.absorb 0 abc) ≠ some 1#4 := ⟨⟨_, rfl⟩, ⟨_, rfl⟩, by decide⟩

theorem witness_FiveCommandsCannotFail :
    (Instr.copy 1 0).indicesValid two.contexts = true ∧ ∀ c blob, Instr.copy 1 0 ≠ .importState c blob := by
  refine ⟨by decide, fun c blob h => ?_⟩
  cases h

/-- An invalid index in every command, in COPY in both places. -/
theorem witness_IndexAboveRangeIsIllegal :
    (Instr.init 2 []).indicesValid two.contexts = false ∧ (Instr.absorb 2 []).indicesValid two.contexts = false ∧
    (Instr.finalize 2).indicesValid two.contexts = false ∧ (Instr.exportState 2).indicesValid two.contexts = false ∧
    (Instr.importState 2 []).indicesValid two.contexts = false ∧ (Instr.copy 2 0).indicesValid two.contexts = false ∧
    (Instr.copy 0 2).indicesValid two.contexts = false := by decide

theorem witness_CommandsAreIdempotentButAbsorb :
    ((∀ c data, Instr.copy 1 0 ≠ .absorb c data) ∧ ∃ t, exec (.copy 1 0) twoAbc = .next t) ∧
    ((1#4).toNat < two.contexts ∧ 0 < [0x61#8].length ∧ [0x61#8].length ≤ 65535 ∧
      ∃ t, exec (.absorb 1 [0x61#8]) two = .next t) := by
  refine ⟨⟨fun c data h => ?_, _, rfl⟩, by decide, by decide, by decide, _, rfl⟩
  cases h

/-- Two states that differ in the context that the command does not name. -/
theorem witness_ResultsDependOnNamedContextsOnly :
    two.contexts = twoAbc.contexts ∧ two.ctx (Instr.finalize 1).ctx = twoAbc.ctx (Instr.finalize 1).ctx ∧
    (∀ d src, Instr.finalize 1 = .copy d src → two.ctx src = twoAbc.ctx src) ∧ two.ctx 0 ≠ twoAbc.ctx 0 ∧
    (∃ t, exec (.finalize 1) two = .next t) ∧ (∃ t, exec (.finalize 1) twoAbc = .next t) := by
  refine ⟨by decide, by decide, fun d src h => ?_, by decide, ⟨_, rfl⟩, ⟨_, rfl⟩⟩
  cases h

/-- A command, an illegal frame with payload, and two bytes of a third frame. -/
theorem witness_OneResponsePerFrameInOrder :
    let frames : List (Word × List Byte) := [(0x00030002#32, abc), (0x00010007#32, [0x61#8])]
    (∀ f ∈ frames, f.2.length = f.1.toNat / 2 ^ 16) ∧ nextCommand [0x03#8, 0x00#8] = .waiting ∧
    (twoWith ((frames.map fun f => le 4 f.1 ++ f.2).flatten ++ [0x03#8, 0x00#8])).cmd =
      (frames.map fun f => le 4 f.1 ++ f.2).flatten ++ [0x03#8, 0x00#8] := by decide

theorem witness_RoundFunctionsBitByBit : 0 < 32 ∧ 31 < 32 := by decide

theorem witness_RotationMovesEveryBit : (1 ≤ 1 ∧ 1 ≤ 31 ∧ 31 < 32) ∧ (1 ≤ 31 ∧ 31 ≤ 31 ∧ 0 < 32) := by decide

/-- The first and the last word of a block. -/
theorem witness_MessageWordsAreLittleEndian :
    let blk : List Byte := (List.range 64).map (BitVec.ofNat 8)
    blk.length = 64 ∧
    (blk[4 * 0]? = some 0x00#8 ∧ blk[4 * 0 + 1]? = some 0x01#8 ∧ blk[4 * 0 + 2]? = some 0x02#8 ∧
      blk[4 * 0 + 3]? = some 0x03#8) ∧
    (15 < 16 ∧ blk[4 * 15]? = some 0x3c#8 ∧ blk[4 * 15 + 1]? = some 0x3d#8 ∧ blk[4 * 15 + 2]? = some 0x3e#8 ∧
      blk[4 * 15 + 3]? = some 0x3f#8) := by decide

/-- Two sequences that differ behind the sixteenth word. -/
theorem witness_BlockReadOnlyThroughItsWords :
    List.replicate 64 0x61#8 ≠ List.replicate 65 0x61#8 ∧
    ∀ j, j < 16 → messageWord (List.replicate 64 0x61#8) j = messageWord (List.replicate 65 0x61#8) j := by decide

/-- The word index of step i, as the statement gives it. -/
def loopIndex (i : Nat) : Nat :=
  if i ≤ 15 then i else if i ≤ 31 then (5 * i + 1) % 16 else if i ≤ 47 then (3 * i + 5) % 16 else (7 * i) % 16

/-- The shift of step i, as the statement gives it. -/
def loopShift (i : Nat) : Nat :=
  if i ≤ 15 then [7, 12, 17, 22].getD (i % 4) 0
  else if i ≤ 31 then [5, 9, 14, 20].getD (i % 4) 0
  else if i ≤ 47 then [4, 11, 16, 23].getD (i % 4) 0 else [6, 10, 15, 21].getD (i % 4) 0

/-- The round function of step i on these registers, as the statement gives it. -/
def loopFunction (i : Nat) (r : Accumulator) : Word :=
  if i ≤ 15 then (r.b &&& r.c) ||| (~~~r.b &&& r.d)
  else if i ≤ 31 then (r.b &&& r.d) ||| (r.c &&& ~~~r.d)
  else if i ≤ 47 then r.b ^^^ r.c ^^^ r.d
  else r.c ^^^ (r.b ||| ~~~r.d)

/-- The registers before step n. -/
def loopRegisters (acc : Accumulator) (blk : List Byte) : Nat → Accumulator
  | 0 => acc
  | n + 1 =>
    let r := loopRegisters acc blk n
    { a := r.d
      b := r.b + (r.a + loopFunction n r + additive n + messageWord blk (loopIndex n)).rotateLeft (loopShift n)
      c := r.b
      d := r.c }

theorem witness_CompressFollowsTheLoop (acc : Accumulator) (blk : List Byte) :
    ∃ (r : Nat → Accumulator) (f g : Nat → Nat) (fw : Nat → Word),
      r 0 = acc ∧
      (∀ i, i < 64 → g i = if i ≤ 15 then i else if i ≤ 31 then (5 * i + 1) % 16
        else if i ≤ 47 then (3 * i + 5) % 16 else (7 * i) % 16) ∧
      (∀ i, i < 64 → f i = if i ≤ 15 then [7, 12, 17, 22].getD (i % 4) 0
        else if i ≤ 31 then [5, 9, 14, 20].getD (i % 4) 0
        else if i ≤ 47 then [4, 11, 16, 23].getD (i % 4) 0 else [6, 10, 15, 21].getD (i % 4) 0) ∧
      (∀ i, i < 64 → fw i =
        if i ≤ 15 then ((r i).b &&& (r i).c) ||| (~~~(r i).b &&& (r i).d)
        else if i ≤ 31 then ((r i).b &&& (r i).d) ||| ((r i).c &&& ~~~(r i).d)
        else if i ≤ 47 then (r i).b ^^^ (r i).c ^^^ (r i).d
        else (r i).c ^^^ ((r i).b ||| ~~~(r i).d)) ∧
      (∀ i, i < 64 → (r (i + 1)).a = (r i).d ∧ (r (i + 1)).c = (r i).b ∧ (r (i + 1)).d = (r i).c ∧
        (r (i + 1)).b = (r i).b + ((r i).a + fw i + additive i + messageWord blk (g i)).rotateLeft (f i)) :=
  ⟨loopRegisters acc blk, loopShift, loopIndex, fun i => loopFunction i (loopRegisters acc blk i), rfl,
    fun _ _ => rfl, fun _ _ => rfl, fun _ _ => rfl, fun _ _ => ⟨rfl, rfl, rfl, rfl⟩⟩

theorem witness_ResetPinRestoresTheFreshState : ({ idlePins with rst := true } : PinsIn).rst = true := rfl

/-- A byte is offered and the host is not ready, in two cycles. -/
theorem witness_HandshakeMovesAndHolds :
    let s : State := { two with rsp := [0x00#8], rspValid := true }
    s.Inv ∧ idlePins.rst = false ∧ (s.pinsOut idlePins execPace).rspValid = true ∧ idlePins.rspReady = false := by
  unfold State.Inv; decide

theorem witness_PortScheduleCannotBeObserved :
    two.Inv ∧
    ∀ x ∈ [({ idlePins with cmdValid := true, cmdData := 0x03#8 }, execPace), (idlePins, execPace)],
      x.1.rst = false := ⟨inv_two, by decide⟩

/-- The last byte of a frame is offered and no response is pending. -/
theorem witness_HandshakeMovesAndHolds_first_answer :
    let s := twoWith [0x06#8, 0x01#8, 0x00#8]
    let i : PinsIn := { idlePins with cmdValid := true, cmdData := 0x00#8 }
    i.rst = false ∧ s.rsp = [] ∧ s.waiting = true ∧ i.cmdValid = true ∧
      nextCommand (s.cmd ++ [i.cmdData]) ≠ .waiting := by decide

/-- One response byte more than the queue holds, a whole frame, and a full command queue behind it. -/
theorem witness_BackPressureStallsTheSender_full :
    let s : State :=
      { two with
        cmd := [0x06#8, 0x01#8, 0x00#8, 0x00#8] ++ List.replicate cmdQueueDepth 0x00#8
        rsp := List.replicate (rspQueueDepth + 1) 0x00#8 }
    s.canEmit = false ∧ s.waiting = false ∧ cmdQueueDepth ≤ s.cmd.length := by
  refine ⟨?_, rfl, ?_⟩
  · unfold State.canEmit
    rw [List.length_replicate]
    exact decide_eq_false (by omega)
  · rw [List.length_append, List.length_replicate]
    exact Nat.le_add_left _ _

theorem witness_BackPressureStallsTheSender_bounded :
    two.Inv ∧ two.rsp.length ≤ rspQueueDepth + 93 ∧
    ∀ x ∈ [({ idlePins with cmdValid := true, cmdData := 0x03#8 }, execPace), (idlePins, execPace)],
      x.1.rst = false ∧ x.1.rspReady = false := ⟨inv_two, Nat.zero_le _, by decide⟩

/-- The frame of COPY 1, 0. -/
def copyFrame : List Byte := [0x06#8, 0x01#8, 0x00#8, 0x00#8]

/-- The host sends that frame in cycles 0 to 3 and is always ready; the engine never delays anything. -/
def promptRun : Schedule := fun n =>
  ({ rst := false, cmdValid := decide (n < 4), cmdData := copyFrame.getD n 0x00#8, rspReady := true }, execPace)

theorem sent_promptRun : ∀ n, n < 5 → (two.trace promptRun n).sent = copyFrame.take n := by decide

theorem sent_promptRun_done (n : Nat) (hn : 4 ≤ n) : (two.trace promptRun n).sent = copyFrame := by
  induction n, hn using Nat.le_induction with
  | base => exact sent_promptRun 4 (by decide)
  | succ n hn ih =>
    rw [State.trace_succ, ih]
    simp [State.cmdMoved, promptRun, Nat.not_lt.mpr hn]

theorem witness_FairRunsEndWithEveryResponseTaken :
    two.Inv ∧ EngineFair two promptRun ∧ HostSends two promptRun copyFrame ∧ HostTakes two promptRun ∧
      NoReset promptRun := by
  refine ⟨inv_two, ⟨fun n => ⟨n, le_rfl, fun _ _ => rfl⟩, fun n => ⟨n, le_rfl, fun _ _ => Nat.one_pos⟩,
    fun n => ⟨n, le_rfl, fun _ _ => rfl⟩⟩, ⟨fun n h => ?_, fun n h moved => ?_, fun n h => ?_⟩,
    fun n => ⟨n, le_rfl, fun _ => rfl⟩, fun _ => rfl⟩
  · have hn : n < 4 := of_decide_eq_true h
    rw [sent_promptRun n (by omega)]
    clear h
    revert n
    decide
  · have hn : n < 4 := of_decide_eq_true h
    have all : ∀ n, n < 4 → (two.atCycle promptRun n).cmdMoved (promptRun n).1 (promptRun n).2 ≠ [] := by decide
    exact absurd moved (all n hn)
  · by_cases hn : n < 4
    · exact ⟨n, le_rfl, decide_eq_true hn⟩
    · rw [sent_promptRun_done n (by omega)] at h
      exact absurd h (by decide)

/-- Data of 65535 bytes assembles at index 15. -/
theorem witness_AssemblerRefusesExactlyMisfits :
    (AsmLine.absorb 15 (List.replicate 65535 0x00#8)).assemble =
      some (.absorb 15 (List.replicate 65535 0x00#8)) := by
  have h : asmData (List.replicate 65535 0x00#8) = some (List.replicate 65535 0x00#8) := by
    unfold asmData; rw [List.length_replicate]; exact if_pos (by decide)
  simp only [AsmLine.assemble, AsmLine.expand, h]
  rfl

/-- Index 16 is refused in both places. -/
theorem test_assembler_refuses_index_16 :
    (AsmLine.finalize 16).assemble = none ∧ (AsmLine.copy 15 16).assemble = none ∧
    (AsmLine.copy 16 15).assemble = none ∧ (AsmLine.copy 15 15).assemble = some (.copy 15 15) := by decide

end Sys2Proof.Tests
end

/-! Proofs about the state: the contexts after reset (10_state.md R34), and which context a command or a step can
write (10_state.md R38). -/

namespace Sys2Proof.Machine

/-! ### Reset -/

theorem State.resetOf_ctx_of_lt {n : Nat} {c : CtxIndex} (hc : c.toNat < n) :
    (State.resetOf n).ctx c = some HashState.fresh := by
  rw [State.ctx, State.resetOf_ctxs]
  exact List.getElem?_replicate_of_lt hc

/-- Settles O1: a slot below NCTX holds `HashState.fresh`, whose constants are those R34 writes out. -/
theorem resetLeavesEveryContextFresh : Obligations.ResetLeavesEveryContextFresh := by
  unfold Obligations.ResetLeavesEveryContextFresh
  intro n _ _
  exact ⟨State.resetOf_contexts n, fun c hc => State.resetOf_ctx_of_lt hc,
    State.resetOf_cmd n, State.resetOf_rsp n, State.resetOf_rspValid n⟩

/-! ### What a command and a step can write -/

/-- Everything a command can do to the contexts: end with an error, complete without a write, or complete with its
destination replaced and no payload. -/
theorem exec_cases (i : Instr) (s : State) :
    (∃ e, e ≠ .ok ∧ exec i s = raise e i.opcode s) ∨
    (∃ payload, writtenContext i = none ∧ exec i s = complete i.opcode payload s) ∨
    (∃ c h, writtenContext i = some c ∧ exec i s = complete i.opcode [] (s.setCtx c h)) := by
  cases i with
  | init c data =>
    obtain ⟨-, h⟩ | ⟨_, -, h⟩ := execInit_cases c data s
    · exact .inl ⟨_, by decide, h⟩
    · exact .inr (.inr ⟨c, _, rfl, h⟩)
  | absorb c data =>
    obtain ⟨-, h⟩ | ⟨_, -, h⟩ := execAbsorb_cases c data s
    · exact .inl ⟨_, by decide, h⟩
    · exact .inr (.inr ⟨c, _, rfl, h⟩)
  | finalize c =>
    obtain ⟨-, h⟩ | ⟨_, -, h⟩ := execFinalize_cases c s
    · exact .inl ⟨_, by decide, h⟩
    · exact .inr (.inl ⟨_, rfl, h⟩)
  | exportState c =>
    obtain ⟨-, h⟩ | ⟨_, -, h⟩ := execExport_cases c s
    · exact .inl ⟨_, by decide, h⟩
    · exact .inr (.inl ⟨_, rfl, h⟩)
  | importState c blob =>
    obtain ⟨-, h⟩ | ⟨_, -, ⟨-, h⟩ | ⟨-, -, h⟩ | ⟨-, -, h⟩⟩ := execImport_cases c blob s
    · exact .inl ⟨_, by decide, h⟩
    · exact .inl ⟨_, by decide, h⟩
    · exact .inl ⟨_, by decide, h⟩
    · exact .inr (.inr ⟨c, _, rfl, h⟩)
  | copy d src =>
    obtain ⟨-, h⟩ | ⟨_, _, -, -, h⟩ := execCopy_cases d src s
    · exact .inl ⟨_, by decide, h⟩
    · exact .inr (.inr ⟨d, _, rfl, h⟩)

/-- A command keeps the number of contexts and every context but its destination. -/
theorem exec_keeps_unwritten {i : Instr} {s t : State} (h : exec i s = .next t) :
    t.contexts = s.contexts ∧ ∀ c : CtxIndex, writtenContext i ≠ some c → t.ctx c = s.ctx c := by
  obtain ⟨e, -, he⟩ | ⟨payload, -, he⟩ | ⟨d, S, hd, he⟩ := exec_cases i s
  · rw [he, raise_eq] at h
    cases h
    exact ⟨State.emit_contexts _ _, fun c _ => State.emit_ctx _ _ c⟩
  · rw [he, complete_eq] at h
    cases h
    exact ⟨State.emit_contexts _ _, fun c _ => State.emit_ctx _ _ c⟩
  · rw [he, complete_eq] at h
    cases h
    refine ⟨by simp, fun c hc => ?_⟩
    have hne : c ≠ d := fun hcd => hc (hcd ▸ hd)
    rw [State.emit_ctx, State.setCtx_ctx_of_ne s d c S hne]

/-- Settles O42: a step that waits or meets an illegal frame writes no context, and one that executes a command writes
at most that command's destination. -/
theorem stepWritesOnlyTheNamedContext : Obligations.StepWritesOnlyTheNamedContext := by
  unfold Obligations.StepWritesOnlyTheNamedContext
  intro s t h
  obtain ⟨-, hs⟩ | ⟨why, opc, rest, -, hs⟩ | ⟨i, rest, hi, hs⟩ := step_cases s
  · rw [hs] at h
    cases h
    exact ⟨rfl, fun _ _ => rfl⟩
  · rw [hs, raise_eq] at h
    cases h
    exact ⟨by simp, fun c _ => by simp⟩
  · rw [hs] at h
    obtain ⟨hn, hctx⟩ := exec_keeps_unwritten h
    exact ⟨hn, fun c hc => hctx c (hc i rest hi)⟩

end Sys2Proof.Machine

/-! Proofs about the layout of the state blob (20_memory.md R57, 42_export_import_copy.md R131). -/

namespace Sys2Proof.Machine

/-! ### Little-endian bytes determine the value -/

/-- The n bytes of `le` hold every bit of a value at most 8n bits wide (00_scope.md R9). -/
theorem le_injective {w n : Nat} (hw : w ≤ 8 * n) : Function.Injective (le n : BitVec w → List Byte) := by
  intro u v h
  refine BitVec.eq_of_getLsbD_eq fun k hk => ?_
  have byte : u.extractLsb' (8 * (k / 8)) 8 = v.extractLsb' (8 * (k / 8)) 8 := by
    have hget := congrArg (·[k / 8]?) h
    simpa [getElem?_le _ _ (k / 8) (by omega : k / 8 < n)] using hget
  have bit := congrArg (·.getLsbD (k % 8)) byte
  simpa [Nat.mod_lt, Nat.div_add_mod] using bit

/-! ### The fields of the blob -/

/-- The fields of fixed width, which stand before the buffer region. -/
def fixedFields (S : HashState) : List Byte :=
  le 4 S.acc.a ++ le 4 S.acc.b ++ le 4 S.acc.c ++ le 4 S.acc.d ++ le 8 S.totalLength

@[simp] theorem length_fixedFields (S : HashState) : (fixedFields S).length = 24 := by simp [fixedFields]

theorem serialise_eq (S : HashState) :
    serialise S = fixedFields S ++ S.buffer ++ List.replicate (64 - S.bufferLength) 0x00#8 ++
      [BitVec.ofNat 8 S.bufferLength] := by
  simp [serialise, fixedFields, fill]

/-- The bytes before the length byte fill offsets 0 to 87. -/
theorem length_before_bufferLength {S : HashState} (hS : S.bufferLength ≤ 63) :
    (fixedFields S ++ S.buffer ++ List.replicate (64 - S.bufferLength) 0x00#8).length = 88 := by
  have hbuf : S.buffer.length = S.bufferLength := rfl
  simp only [List.length_append, length_fixedFields, hbuf, List.length_replicate]
  omega

theorem length_serialise {S : HashState} (hS : S.bufferLength ≤ 63) : (serialise S).length = 89 := by
  rw [serialise_eq, List.length_append, length_before_bufferLength hS, List.length_singleton]

theorem serialise_fixed_slices (S : HashState) :
    slice (serialise S) 0 4 = le 4 S.acc.a ∧ slice (serialise S) 4 8 = le 4 S.acc.b ∧
    slice (serialise S) 8 12 = le 4 S.acc.c ∧ slice (serialise S) 12 16 = le 4 S.acc.d ∧
    slice (serialise S) 16 24 = le 8 S.totalLength := by
  simp [serialise, slice_append_left, slice_append_right, slice_zero_length]

theorem serialise_buffer_slice (S : HashState) : slice (serialise S) 24 (24 + S.bufferLength) = S.buffer := by
  rw [serialise_eq, List.append_assoc]
  exact slice_middle _ _ _ _ _ (length_fixedFields S).symm (by simp [HashState.bufferLength])

theorem serialise_filler_slice {S : HashState} (hS : S.bufferLength ≤ 63) :
    slice (serialise S) (24 + S.bufferLength) 88 = List.replicate (64 - S.bufferLength) 0x00#8 := by
  rw [serialise_eq]
  refine slice_middle _ _ _ _ _ (by simp [HashState.bufferLength]) ?_
  rw [← List.length_append, length_before_bufferLength hS]

theorem serialise_length_byte {S : HashState} (hS : S.bufferLength ≤ 63) :
    (serialise S)[88]? = some (BitVec.ofNat 8 S.bufferLength) := by
  rw [serialise_eq, ← length_before_bufferLength hS, List.getElem?_concat_length]

/-! ### Equal blobs -/

theorem HashState.eq_of_fields {S T : HashState} (ha : S.acc.a = T.acc.a) (hb : S.acc.b = T.acc.b)
    (hc : S.acc.c = T.acc.c) (hd : S.acc.d = T.acc.d) (htotal : S.totalLength = T.totalLength)
    (hbuf : S.buffer = T.buffer) : S = T := by
  obtain ⟨⟨_, _, _, _⟩, _, _⟩ := S
  obtain ⟨⟨_, _, _, _⟩, _, _⟩ := T
  simp_all

/-- The length byte of equal blobs gives equal buffer lengths, so every field is the same slice of the same bytes. -/
theorem serialise_injective {S T : HashState} (hS : S.bufferLength ≤ 63) (hT : T.bufferLength ≤ 63)
    (h : serialise S = serialise T) : S = T := by
  have hlen : S.bufferLength = T.bufferLength := by
    have hbyte : BitVec.ofNat 8 S.bufferLength = BitVec.ofNat 8 T.bufferLength :=
      Option.some.inj (by rw [← serialise_length_byte hS, ← serialise_length_byte hT, h])
    have := congrArg BitVec.toNat hbyte
    simp only [BitVec.toNat_ofNat] at this
    omega
  have hbuf : S.buffer = T.buffer := by rw [← serialise_buffer_slice S, ← serialise_buffer_slice T, h, hlen]
  have word : Function.Injective (le 4 : Word → List Byte) := le_injective (by decide)
  have count : Function.Injective (le 8 : Count → List Byte) := le_injective (by decide)
  obtain ⟨a, b, c, d, total⟩ := serialise_fixed_slices S
  rw [h] at a b c d total
  obtain ⟨a', b', c', d', total'⟩ := serialise_fixed_slices T
  exact HashState.eq_of_fields (word (a.symm.trans a')) (word (b.symm.trans b')) (word (c.symm.trans c'))
    (word (d.symm.trans d')) (count (total.symm.trans total')) hbuf

/-- Settles O33: each field is a slice of the parts `serialise` concatenates, and the fields give the state back. -/
theorem blobLayout : Obligations.BlobLayout := by
  unfold Obligations.BlobLayout
  refine ⟨fun S hS => ?_, fun S T hS hT h => serialise_injective hS hT h⟩
  obtain ⟨a, b, c, d, total⟩ := serialise_fixed_slices S
  exact ⟨length_serialise hS, a, b, c, d, total, serialise_buffer_slice S, serialise_filler_slice hS,
    serialise_length_byte hS⟩

end Sys2Proof.Machine

/-! Proofs about command frames: what the decoder reads from a whole frame, and which headers are illegal
(30_encoding.md R71 to R76, R83, R84; 60_exceptions.md R183). -/

namespace Sys2Proof

/-! ### Little-endian bytes and the number they spell (00_scope.md R9) -/

/-- The first byte is the low byte; the others spell the value shifted down by one byte. -/
theorem le_succ {w : Nat} (n : Nat) (v : BitVec w) : le (n + 1) v = v.extractLsb' 0 8 :: le n (v >>> 8) := by
  have byte (i : Nat) : v.extractLsb' (8 * (i + 1)) 8 = (v >>> 8).extractLsb' (8 * i) 8 := by
    refine BitVec.eq_of_getLsbD_eq fun k _ => ?_
    simp [show 8 * (i + 1) + k = 8 + (8 * i + k) by omega]
  simp [le, List.range_succ_eq_map, byte, Function.comp_def]

theorem unleNat_le {w : Nat} (n : Nat) (v : BitVec w) : unleNat (le n v) = v.toNat % 2 ^ (8 * n) := by
  induction n generalizing v with
  | zero => simp [le, unleNat, Nat.mod_one]
  | succ n ih =>
    rw [le_succ, unleNat, ih, Nat.mul_succ, Nat.add_comm (8 * n), Nat.pow_add, Nat.mod_mul]
    simp [Nat.shiftRight_eq_div_pow]

/-- `unle` undoes `le` where the n bytes hold the whole value. -/
theorem unle_le {w n : Nat} (hw : w ≤ 8 * n) (v : BitVec w) : unle w (le n v) = v := by
  have hv : v.toNat < 2 ^ (8 * n) := v.isLt.trans_le (Nat.pow_le_pow_right (by omega) hw)
  rw [unle, unleNat_le, Nat.mod_eq_of_lt hv, BitVec.ofNat_toNat, BitVec.setWidth_eq]

/-- Byte sequences of one length that spell one number are equal. -/
theorem eq_of_unleNat_eq {s t : List Byte} (hlen : s.length = t.length) (h : unleNat s = unleNat t) : s = t := by
  induction s generalizing t with
  | nil => exact (List.length_eq_zero_iff.mp hlen.symm).symm
  | cons b s ih =>
    cases t with
    | nil => cases hlen
    | cons c t =>
      simp only [unleNat] at h
      have hb := b.isLt
      have hc := c.isLt
      rw [BitVec.eq_of_toNat_eq (show b.toNat = c.toNat by omega), ih (Nat.succ.inj hlen) (by omega)]

/-- `le` undoes `unle` where the width holds every byte. -/
theorem le_unle {w n : Nat} {s : List Byte} (hs : s.length = n) (hw : 8 * n ≤ w) : le n (unle w s) = s := by
  subst hs
  have hlt := unleNat_lt s
  have hlt' : unleNat s < 2 ^ w := hlt.trans_le (Nat.pow_le_pow_right (by omega) hw)
  refine eq_of_unleNat_eq (length_le _ _) ?_
  rw [unleNat_le, unle, BitVec.toNat_ofNat, Nat.mod_eq_of_lt hlt', Nat.mod_eq_of_lt hlt]

/-! ### The header's fields as numbers (30_encoding.md R72) -/

theorem headerOpc_eq_ofNat (h : Word) : headerOpc h = BitVec.ofNat 8 h.toNat :=
  BitVec.eq_of_toNat_eq (by simp [headerOpc])

theorem toNat_headerOpc (h : Word) : (headerOpc h).toNat = h.toNat % 256 := by
  simp [headerOpc]

theorem toNat_headerCtx (h : Word) : (headerCtx h).toNat = h.toNat / 2 ^ 8 % 16 := by
  simp [headerCtx, Nat.shiftRight_eq_div_pow]

theorem toNat_headerSrc (h : Word) : (headerSrc h).toNat = h.toNat / 2 ^ 12 % 16 := by
  simp [headerSrc, Nat.shiftRight_eq_div_pow]

theorem headerLen_eq (h : Word) : headerLen h = h.toNat / 2 ^ 16 := by
  have hh := h.isLt
  simp only [headerLen, BitVec.extractLsb'_toNat, Nat.shiftRight_eq_div_pow]
  omega

/-! ### Taking a frame -/

/-- Taking a frame from a header and the bytes after it: LEN decides, and nothing else of the header. -/
theorem takeFrame_header (h : Word) (bs : List Byte) :
    takeFrame (le 4 h ++ bs) = if bs.length < headerLen h then none
      else some ({ header := h, payload := bs.take (headerLen h) }, bs.drop (headerLen h)) := by
  have htake : (le 4 h ++ bs).take 4 = le 4 h := List.take_left' (length_le 4 h)
  have hdrop : (le 4 h ++ bs).drop 4 = bs := List.drop_left' (length_le 4 h)
  have hlen : ¬ (le 4 h ++ bs).length < 4 := by simp
  rw [takeFrame, if_neg hlen, htake, hdrop, unle_le (by omega)]

theorem takeFrame_whole (h : Word) (payload rest : List Byte) (hlen : payload.length = headerLen h) :
    takeFrame (le 4 h ++ payload ++ rest) = some ({ header := h, payload := payload }, rest) := by
  rw [List.append_assoc, takeFrame_header, ← hlen, if_neg (by simp), List.take_left, List.drop_left]

/-- A stream of at least 4 bytes is a header word and the bytes after it. -/
theorem eq_header_append (bs : List Byte) (h : 4 ≤ bs.length) : bs = le 4 (unle 32 (bs.take 4)) ++ bs.drop 4 := by
  rw [le_unle (List.length_take_of_le h) (by omega), List.take_append_drop]

theorem takeFrame_eq_some {bs rest : List Byte} {f : Frame} (h : takeFrame bs = some (f, rest)) :
    bs = le 4 f.header ++ f.payload ++ rest ∧ f.payload.length = headerLen f.header := by
  by_cases hshort : bs.length < 4
  · rw [takeFrame, if_pos hshort] at h
    cases h
  · have hbs := eq_header_append bs (by omega)
    rw [hbs, takeFrame_header] at h
    split at h
    · cases h
    · cases h
      refine ⟨?_, List.length_take_of_le (by omega)⟩
      rw [List.append_assoc, List.take_append_drop, ← hbs]

/-- Settles O8: both ways through the header word at the front of the stream and its LEN field. -/
theorem frameLengthDependsOnLenAlone : Obligations.FrameLengthDependsOnLenAlone := by
  unfold Obligations.FrameLengthDependsOnLenAlone
  simp only [← headerLen_eq]
  exact ⟨takeFrame_whole, fun _ _ _ => takeFrame_eq_some⟩

/-! ### What a frame decodes to -/

/-- The command's opcode, indices and payload are those of the frame. -/
structure Instr.Spells (i : Instr) (f : Frame) : Prop where
  opcode : i.opcode = headerOpc f.header
  ctx : i.ctx = headerCtx f.header
  src : i.src = headerSrc f.header
  payload : i.payload = f.payload

theorem nil_eq_payload {f : Frame} (hlen : f.payload.length = headerLen f.header) (h0 : headerLen f.header = 0) :
    [] = f.payload :=
  (List.length_eq_zero_iff.mp (hlen.trans h0)).symm

theorem decodeWithPayload_eq_ok_iff {f : Frame} {mk : CtxIndex → List Byte → Instr} {i : Instr} :
    decodeWithPayload f mk = .ok i ↔ headerSrc f.header = 0 ∧ i = mk (headerCtx f.header) f.payload := by
  unfold decodeWithPayload
  split <;> simp_all [eq_comm]

theorem decodeBare_eq_ok_iff {f : Frame} {mk : CtxIndex → Instr} {i : Instr} :
    decodeBare f mk = .ok i ↔
      headerSrc f.header = 0 ∧ headerLen f.header = 0 ∧ i = mk (headerCtx f.header) := by
  unfold decodeBare
  split
  · simp_all
  · split <;> simp_all [eq_comm]

theorem decodeCopy_eq_ok_iff {f : Frame} {i : Instr} :
    decodeCopy f = .ok i ↔
      headerLen f.header = 0 ∧ i = .copy (headerCtx f.header) (headerSrc f.header) := by
  unfold decodeCopy
  split <;> simp_all [eq_comm]

/-- A frame that decodes spells its command: each arm of the decoder reads the fields its command has, and has
checked that the fields it does not have are 0. -/
theorem spells_of_decodeFrame {f : Frame} {i : Instr} (hlen : f.payload.length = headerLen f.header)
    (h : decodeFrame f = .ok i) : i.Spells f := by
  simp only [decodeFrame] at h
  split_ifs at h with hinit habsorb hfinalize hexport himport hcopy
  · obtain ⟨hsrc, rfl⟩ := decodeWithPayload_eq_ok_iff.mp h
    exact ⟨hinit.symm, rfl, hsrc.symm, rfl⟩
  · obtain ⟨hsrc, rfl⟩ := decodeWithPayload_eq_ok_iff.mp h
    exact ⟨habsorb.symm, rfl, hsrc.symm, rfl⟩
  · obtain ⟨hsrc, h0, rfl⟩ := decodeBare_eq_ok_iff.mp h
    exact ⟨hfinalize.symm, rfl, hsrc.symm, nil_eq_payload hlen h0⟩
  · obtain ⟨hsrc, h0, rfl⟩ := decodeBare_eq_ok_iff.mp h
    exact ⟨hexport.symm, rfl, hsrc.symm, nil_eq_payload hlen h0⟩
  · obtain ⟨hsrc, rfl⟩ := decodeWithPayload_eq_ok_iff.mp h
    exact ⟨himport.symm, rfl, hsrc.symm, rfl⟩
  · obtain ⟨h0, rfl⟩ := decodeCopy_eq_ok_iff.mp h
    exact ⟨hcopy.symm, rfl, rfl, nil_eq_payload hlen h0⟩

/-- A frame that spells a command decodes to it. -/
theorem decodeFrame_of_spells {f : Frame} {i : Instr} (hlen : f.payload.length = headerLen f.header)
    (h : i.Spells f) : decodeFrame f = .ok i := by
  obtain ⟨hopc, hctx, hsrc, hpay⟩ := h
  have hlen0 (hnil : i.payload = []) : headerLen f.header = 0 := by rw [← hlen, ← hpay, hnil, List.length_nil]
  unfold decodeFrame
  rw [← hopc]
  cases i with
  | init c data => exact decodeWithPayload_eq_ok_iff.mpr ⟨hsrc.symm, congrArg₂ Instr.init hctx hpay⟩
  | absorb c data => exact decodeWithPayload_eq_ok_iff.mpr ⟨hsrc.symm, congrArg₂ Instr.absorb hctx hpay⟩
  | finalize c => exact decodeBare_eq_ok_iff.mpr ⟨hsrc.symm, hlen0 rfl, congrArg Instr.finalize hctx⟩
  | exportState c => exact decodeBare_eq_ok_iff.mpr ⟨hsrc.symm, hlen0 rfl, congrArg Instr.exportState hctx⟩
  | importState c blob =>
    exact decodeWithPayload_eq_ok_iff.mpr ⟨hsrc.symm, congrArg₂ Instr.importState hctx hpay⟩
  | copy d s => exact decodeCopy_eq_ok_iff.mpr ⟨hlen0 rfl, congrArg₂ Instr.copy hctx hsrc⟩

end Sys2Proof

namespace Sys2Proof.Machine

/-! ### Illegal headers (60_exceptions.md R183) -/

theorem illegalHeader_iff (n : Nat) (h : Word) :
    illegalHeader n h ↔
      (headerOpc h).toNat < 1 ∨ 6 < (headerOpc h).toNat ∨ n ≤ (headerCtx h).toNat ∨
      ((headerOpc h).toNat ≤ 5 ∧ headerSrc h ≠ 0) ∨ ((headerOpc h).toNat = 6 ∧ n ≤ (headerSrc h).toNat) ∨
      (((headerOpc h).toNat = 3 ∨ (headerOpc h).toNat = 4 ∨ (headerOpc h).toNat = 6) ∧ headerLen h ≠ 0) := by
  have hsrc : headerSrc h ≠ 0 ↔ (headerSrc h).toNat ≠ 0 := BitVec.toNat_ne_iff_ne.symm
  rw [hsrc, toNat_headerOpc, toNat_headerCtx, toNat_headerSrc, headerLen_eq]
  rfl

/-- A command with valid indices is spelt by no illegal header. -/
theorem not_illegalHeader_of_spells {n : Nat} {f : Frame} {i : Instr}
    (hlen : f.payload.length = headerLen f.header) (h : i.Spells f) (hi : i.indicesValid n = true) :
    ¬ illegalHeader n f.header := by
  obtain ⟨hopc, hctx, hsrc, hpay⟩ := h
  rw [illegalHeader_iff, ← hopc, ← hctx, ← hsrc, ← hlen, ← hpay]
  cases i <;>
    simp [Instr.indicesValid, Instr.opcode, Instr.ctx, Instr.src, Instr.payload, opcInit, opcAbsorb, opcFinalize,
      opcExport, opcImport, opcCopy] at hi ⊢ <;>
    omega

/-- A header that is not illegal spells, with its payload, a command with valid indices. -/
theorem exists_spells_of_not_illegalHeader {n : Nat} {f : Frame}
    (hlen : f.payload.length = headerLen f.header) (h : ¬ illegalHeader n f.header) :
    ∃ i : Instr, i.Spells f ∧ i.indicesValid n = true := by
  simp only [illegalHeader_iff, not_or, not_and, not_not, not_lt, not_le] at h
  obtain ⟨hlo, hhi, hctx, hsrc, hcopy, hbare⟩ := h
  have opc {k : Byte} (hk : (headerOpc f.header).toNat = k.toNat) : k = headerOpc f.header :=
    (BitVec.eq_of_toNat_eq hk).symm
  obtain hk | hk | hk | hk | hk | hk : (headerOpc f.header).toNat = 1 ∨ (headerOpc f.header).toNat = 2 ∨
      (headerOpc f.header).toNat = 3 ∨ (headerOpc f.header).toNat = 4 ∨ (headerOpc f.header).toNat = 5 ∨
      (headerOpc f.header).toNat = 6 := by omega
  · exact ⟨.init (headerCtx f.header) f.payload, ⟨opc hk, rfl, (hsrc (by omega)).symm, rfl⟩, decide_eq_true hctx⟩
  · exact ⟨.absorb (headerCtx f.header) f.payload, ⟨opc hk, rfl, (hsrc (by omega)).symm, rfl⟩, decide_eq_true hctx⟩
  · exact ⟨.finalize (headerCtx f.header), ⟨opc hk, rfl, (hsrc (by omega)).symm,
      nil_eq_payload hlen (hbare (by omega))⟩, decide_eq_true hctx⟩
  · exact ⟨.exportState (headerCtx f.header), ⟨opc hk, rfl, (hsrc (by omega)).symm,
      nil_eq_payload hlen (hbare (by omega))⟩, decide_eq_true hctx⟩
  · exact ⟨.importState (headerCtx f.header) f.payload, ⟨opc hk, rfl, (hsrc (by omega)).symm, rfl⟩,
      decide_eq_true hctx⟩
  · refine ⟨.copy (headerCtx f.header) (headerSrc f.header),
      ⟨opc hk, rfl, rfl, nil_eq_payload hlen (hbare (by omega))⟩, ?_⟩
    simp [Instr.indicesValid, hctx, hcopy hk]

/-! ### The step on a whole frame -/

/-- A command with an index at or above NCTX is illegal, whichever command and whichever index. -/
theorem exec_of_indices_invalid {i : Instr} {s : State} (h : i.indicesValid s.contexts = false) :
    exec i s = raise .illegalCommand i.opcode s := by
  have none_of {c : CtxIndex} (hc : decide (c.toNat < s.contexts) = false) : s.ctx c = none :=
    (s.ctx_eq_none_iff c).mpr (Nat.le_of_not_lt (of_decide_eq_false hc))
  cases i with
  | init c data => exact onContext_of_none opcInit c s _ (none_of h)
  | absorb c data => exact onContext_of_none opcAbsorb c s _ (none_of h)
  | finalize c => exact onContext_of_none opcFinalize c s _ (none_of h)
  | exportState c => exact onContext_of_none opcExport c s _ (none_of h)
  | importState c blob => exact onContext_of_none opcImport c s _ (none_of h)
  | copy d src =>
    obtain ⟨-, hex⟩ | ⟨T, S, hd, hs, -⟩ := execCopy_cases d src s
    · exact hex
    · rcases Bool.and_eq_false_iff.mp h with hc | hc
      · rw [none_of hc] at hd
        cases hd
      · rw [none_of hc] at hs
        cases hs

/-- With a whole frame at the front, the step is what decoding that frame says. -/
theorem step_of_frame {s : State} {f : Frame} {rest : List Byte} (hcmd : s.cmd = le 4 f.header ++ f.payload ++ rest)
    (hlen : f.payload.length = headerLen f.header) :
    (∀ i, decodeFrame f = .ok i → step s = exec i (s.withCmd rest)) ∧
    (∀ why, decodeFrame f = .error why →
      step s = raise .illegalCommand (headerOpc f.header) (s.withCmd rest)) := by
  have htake : takeFrame s.cmd = some (f, rest) := by rw [hcmd, takeFrame_whole _ _ _ hlen]
  exact ⟨fun i h => by simp [step, nextCommand, htake, h], fun why h => by simp [step, nextCommand, htake, h]⟩

/-- A frame with an illegal header is consumed and answered 0x03, whether the decoder or the execution finds it. -/
theorem step_of_illegalHeader {s : State} {f : Frame} {rest : List Byte}
    (hcmd : s.cmd = le 4 f.header ++ f.payload ++ rest) (hlen : f.payload.length = headerLen f.header)
    (hill : illegalHeader s.contexts f.header) :
    step s = raise .illegalCommand (headerOpc f.header) (s.withCmd rest) := by
  obtain ⟨hok, herror⟩ := step_of_frame hcmd hlen
  cases hdec : decodeFrame f with
  | error why => exact herror why hdec
  | ok i =>
    have hspells := spells_of_decodeFrame hlen hdec
    have hinvalid : i.indicesValid (s.withCmd rest).contexts = false :=
      Bool.eq_false_iff.mpr fun hi => not_illegalHeader_of_spells hlen hspells hi hill
    rw [hok i hdec, exec_of_indices_invalid hinvalid, hspells.opcode]

/-- Settles O11: the illegal headers are those that spell no command with valid indices. -/
theorem stepFollowsTheDecodeProcedure : Obligations.StepFollowsTheDecodeProcedure := by
  unfold Obligations.StepFollowsTheDecodeProcedure
  intro s h payload rest hcmd hlen
  rw [← headerLen_eq] at hlen
  let f : Frame := { header := h, payload := payload }
  refine ⟨fun hill => ?_, fun hlegal => ?_⟩
  · rw [step_of_illegalHeader (f := f) hcmd hlen hill, raise_eq, State.emit, encode_empty, ← headerOpc_eq_ofNat]
    rfl
  · obtain ⟨i, hi, hvalid⟩ := exists_spells_of_not_illegalHeader (f := f) hlen hlegal
    refine ⟨i, ?_, ?_, ?_, hi.payload, hvalid, (step_of_frame hcmd hlen).1 i (decodeFrame_of_spells hlen hi)⟩
    · rw [hi.opcode, toNat_headerOpc]
    · rw [hi.ctx, toNat_headerCtx]
    · rw [hi.src, toNat_headerSrc]

/-! ### Pseudo-commands (30_encoding.md R83) -/

/-- The assembler looks at a line's expansion only. -/
theorem AsmLine.assemble_eq_of_expand_eq {l m : AsmLine} (h : l.expand = m.expand) : l.assemble = m.assemble := by
  rw [AsmLine.assemble, AsmLine.assemble, h]

/-- Settles O60: each pseudo-command and its expansion expand to the same line; the two encodings are computed. -/
theorem pseudoCommandsExpand : Obligations.PseudoCommandsExpand := by
  unfold Obligations.PseudoCommandsExpand
  exact ⟨fun c data => ⟨AsmLine.assemble_eq_of_expand_eq rfl, AsmLine.assemble_eq_of_expand_eq rfl,
    AsmLine.assemble_eq_of_expand_eq rfl⟩, by decide, by decide⟩

end Sys2Proof.Machine

/-! Proofs about INIT and ABSORB: the block loop of `absorb` on bytes cut into blocks, and the two commands on a
context and as frames (40_construct_absorb.md). -/

namespace Sys2Proof.Machine

/-! ### Bytes cut into blocks (R102, R163) -/

theorem AllBlocks.length_flatten {blocks : List (List Byte)} (h : AllBlocks blocks) :
    blocks.flatten.length = 64 * blocks.length := by
  rw [List.length_flatten, List.map_congr_left h, List.map_const', List.sum_replicate_nat, Nat.mul_comm]

/-- Every byte sequence is some blocks followed by less than a block. -/
theorem exists_blocks (w : List Byte) :
    ∃ blocks rest, AllBlocks blocks ∧ rest.length < 64 ∧ w = blocks.flatten ++ rest := by
  by_cases hw : w.length < 64
  · exact ⟨[], w, nofun, hw, rfl⟩
  · obtain ⟨blocks, rest, hblocks, hrest, hdrop⟩ := exists_blocks (w.drop 64)
    have hfirst : (w.take 64).length = 64 := List.length_take_of_le (by omega)
    refine ⟨w.take 64 :: blocks, rest, List.forall_mem_cons.mpr ⟨hfirst, hblocks⟩, hrest, ?_⟩
    rw [List.flatten_cons, List.append_assoc, ← hdrop, List.take_append_drop]
termination_by w.length
decreasing_by rw [List.length_drop]; omega

theorem compressBlocks_flatten {blocks : List (List Byte)} (h : AllBlocks blocks) (acc : Accumulator)
    (rest : List Byte) :
    compressBlocks blocks.length acc (blocks.flatten ++ rest) = (blocks.foldl compress acc, rest) := by
  induction blocks generalizing acc with
  | nil => rfl
  | cons b blocks ih =>
    obtain ⟨hb, hblocks⟩ := List.forall_mem_cons.mp h
    rw [List.length_cons, compressBlocks, List.flatten_cons, List.append_assoc, List.take_left' hb,
      List.drop_left' hb, ih hblocks, List.foldl_cons]

/-- `absorb` on bytes cut into blocks: the fields of the new state. -/
theorem absorb_eq_of_blocks {S : HashState} {bytes rest : List Byte} {blocks : List (List Byte)}
    (hblocks : AllBlocks blocks) (hrest : rest.length < 64) (h : S.buffer ++ bytes = blocks.flatten ++ rest) :
    absorb S bytes =
      { acc := blocks.foldl compress S.acc
        totalLength := S.totalLength + BitVec.ofNat 64 bytes.length
        buffer := rest } := by
  have hcount : (blocks.flatten ++ rest).length / 64 = blocks.length := by
    rw [List.length_append, hblocks.length_flatten]
    omega
  rw [absorb, h, hcount, compressBlocks_flatten hblocks]

theorem toNat_absorb_totalLength (S : HashState) (bytes : List Byte) :
    (absorb S bytes).totalLength.toNat = (S.totalLength.toNat + bytes.length) % 2 ^ 64 := by
  simp

/-- Settles O18: the fields are those of `absorb_eq_of_blocks`, and both cuts of the bytes have the same length. -/
theorem absorbChainsWholeBlocks : Obligations.AbsorbChainsWholeBlocks := by
  unfold Obligations.AbsorbChainsWholeBlocks
  intro S bytes rest blocks hblocks hrest h
  have habsorb := absorb_eq_of_blocks hblocks hrest h
  have hlen : S.bufferLength + bytes.length = 64 * blocks.length + rest.length := by
    rw [HashState.bufferLength, ← List.length_append, h, List.length_append, hblocks.length_flatten]
  have hbuf : (absorb S bytes).bufferLength = rest.length := by rw [habsorb, HashState.bufferLength]
  exact ⟨by rw [habsorb], by rw [habsorb], toNat_absorb_totalLength S bytes, by omega, by omega⟩

/-! ### Absorbing nothing, and absorbing in two parts (R103 to R105) -/

theorem absorb_nil {S : HashState} (hS : S.bufferLength ≤ 63) : absorb S [] = S := by
  have h : absorb S [] = { S with totalLength := S.totalLength + 0#64 } :=
    absorb_eq_of_blocks (blocks := []) nofun (Nat.lt_succ_of_le hS) (List.append_nil _)
  rw [h, BitVec.add_zero]

/-- The blocks of the whole are the blocks of the first part followed by those of what it leaves and the second. -/
theorem absorb_absorb (S : HashState) (x y : List Byte) : absorb (absorb S x) y = absorb S (x ++ y) := by
  obtain ⟨blocks₁, rest₁, hblocks₁, hrest₁, h₁⟩ := exists_blocks (S.buffer ++ x)
  obtain ⟨blocks₂, rest₂, hblocks₂, hrest₂, h₂⟩ := exists_blocks (rest₁ ++ y)
  have hblocks : AllBlocks (blocks₁ ++ blocks₂) := List.forall_mem_append.mpr ⟨hblocks₁, hblocks₂⟩
  have h : S.buffer ++ (x ++ y) = (blocks₁ ++ blocks₂).flatten ++ rest₂ := by
    rw [← List.append_assoc, h₁, List.append_assoc, h₂, List.flatten_append, List.append_assoc]
  rw [absorb_eq_of_blocks hblocks₁ hrest₁ h₁, absorb_eq_of_blocks hblocks₂ hrest₂ h₂,
    absorb_eq_of_blocks hblocks hrest₂ h, List.foldl_append, List.length_append, BitVec.ofNat_add, BitVec.add_assoc]

theorem slice_append_slice (s : List Byte) (i : Nat) : slice s 0 i ++ slice s i s.length = s := by
  simp [slice, List.take_of_length_le]

/-- Settles O22: the two parts absorbed are the whole absorbed, before any digest is taken. -/
theorem digestIndependentOfTheSplit : Obligations.DigestIndependentOfTheSplit := by
  unfold Obligations.DigestIndependentOfTheSplit
  intro s i _
  rw [absorb_absorb, slice_append_slice]

/-! ### The two commands on a context (R100, R101) -/

/-- An error response without payload, as bytes at the end of the response stream. -/
theorem raise_eq_bytes (e : Status) (opc : Byte) (s : State) :
    raise e opc s = .next { s with rsp := s.rsp ++ [e.code, opc, 0x00#8, 0x00#8] } := by
  rw [raise_eq, State.emit, encode_empty]

/-- An OK response without payload, after the write of a slot. -/
theorem complete_setCtx (opc : Byte) (s : State) (c : CtxIndex) (S : HashState) :
    complete opc [] (s.setCtx c S) =
      .next { s with ctxs := s.ctxs.set c.toNat S, rsp := s.rsp ++ [0x00#8, opc, 0x00#8, 0x00#8] } := by
  rw [complete_eq, State.emit, encode_empty]
  rfl

theorem exec_init_of_lt {s : State} {c : CtxIndex} (data : List Byte) (hc : c.toNat < s.contexts) :
    exec (.init c data) s = .next { s with
      ctxs := s.ctxs.set c.toNat (absorb HashState.fresh data)
      rsp := s.rsp ++ [0x00#8, 0x01#8, 0x00#8, 0x00#8] } := by
  obtain ⟨S, hS⟩ := (s.ctx_isSome_iff c).mpr hc
  exact (onContext_of_some opcInit c s _ S hS).trans (complete_setCtx opcInit s c _)

theorem exec_absorb_of_ctx {s : State} {c : CtxIndex} {S : HashState} (data : List Byte) (hS : s.ctx c = some S) :
    exec (.absorb c data) s = .next { s with
      ctxs := s.ctxs.set c.toNat (absorb S data)
      rsp := s.rsp ++ [0x00#8, 0x02#8, 0x00#8, 0x00#8] } :=
  (onContext_of_some opcAbsorb c s _ S hS).trans (complete_setCtx opcAbsorb s c _)

/-- A command with an index at or above NCTX, with its response as bytes. -/
theorem exec_eq_of_indices_invalid {i : Instr} {s : State} (h : i.indicesValid s.contexts = false) :
    exec i s = .next { s with rsp := s.rsp ++ [0x03#8, i.opcode, 0x00#8, 0x00#8] } := by
  rw [exec_of_indices_invalid h, raise_eq_bytes]
  rfl

/-- Writing back the value a slot holds changes nothing. -/
theorem State.set_of_ctx {s : State} {c : CtxIndex} {S : HashState} (hS : s.ctx c = some S) :
    s.ctxs.set c.toNat S = s.ctxs := by
  obtain ⟨hc, rfl⟩ := List.getElem?_eq_some_iff.mp hS
  exact List.set_getElem_self hc

/-! ### Frames that run one command -/

/-- Every frame with one opcode is settled when the bad fields are those of the illegal headers, and the others spell
the command. -/
theorem State.runsFrames_of_spells {s : State} {opc : Nat} {bad : Nat → Nat → Nat → Prop}
    {mk : CtxIndex → CtxIndex → List Byte → Instr}
    (hbad : ∀ h : Word, h.toNat % 256 = opc →
      (bad (h.toNat / 2 ^ 8 % 16) (h.toNat / 2 ^ 12 % 16) (h.toNat / 2 ^ 16) ↔ illegalHeader s.contexts h))
    (hmk : ∀ f : Frame, f.payload.length = headerLen f.header → f.header.toNat % 256 = opc →
      ¬ illegalHeader s.contexts f.header → (mk (headerCtx f.header) (headerSrc f.header) f.payload).Spells f) :
    s.RunsFrames opc bad mk := by
  intro h payload rest hcmd hlen hopc
  rw [hlen, hbad h hopc]
  rw [← headerLen_eq] at hlen
  let f : Frame := { header := h, payload := payload }
  refine ⟨fun hill => ?_, fun hlegal => ?_⟩
  · have hecho : headerOpc h = BitVec.ofNat 8 opc := BitVec.eq_of_toNat_eq (by simp [toNat_headerOpc, ← hopc])
    rw [step_of_illegalHeader (f := f) hcmd hlen hill, raise_eq_bytes, hecho]
    rfl
  · have hctx : BitVec.ofNat 4 (h.toNat / 2 ^ 8) = headerCtx h := BitVec.eq_of_toNat_eq (by simp [toNat_headerCtx])
    have hsrc : BitVec.ofNat 4 (h.toNat / 2 ^ 12) = headerSrc h := BitVec.eq_of_toNat_eq (by simp [toNat_headerSrc])
    rw [hctx, hsrc]
    exact (step_of_frame hcmd hlen).1 _ (decodeFrame_of_spells (f := f) hlen (hmk f hlen hopc hlegal))

/-- INIT, ABSORB and IMPORT: the frame is bad where CTX is at or above NCTX or SRC is not 0 (30_encoding.md R75). -/
theorem State.runsFrames_withPayload (s : State) {k : Byte} {mk : CtxIndex → List Byte → Instr}
    (hk : k.toNat = 1 ∨ k.toNat = 2 ∨ k.toNat = 5)
    (hmk : ∀ c data, (mk c data).opcode = k ∧ (mk c data).ctx = c ∧ (mk c data).src = 0 ∧
      (mk c data).payload = data) :
    s.RunsFrames k.toNat (fun ctx src _ => s.contexts ≤ ctx ∨ src ≠ 0) (fun i _ payload => mk i payload) := by
  have hill (h : Word) (hopc : h.toNat % 256 = k.toNat) :
      (s.contexts ≤ h.toNat / 2 ^ 8 % 16 ∨ h.toNat / 2 ^ 12 % 16 ≠ 0) ↔ illegalHeader s.contexts h := by
    simp only [illegalHeader]
    omega
  refine State.runsFrames_of_spells hill fun f _ hopc hlegal => ?_
  obtain ⟨hopcode, hctx, hsrc, hpayload⟩ := hmk (headerCtx f.header) f.payload
  have hsrc0 : (headerSrc f.header).toNat = 0 := by
    rw [toNat_headerSrc]
    by_contra hne
    exact hlegal ((hill f.header hopc).mp (.inr hne))
  exact ⟨hopcode.trans (BitVec.eq_of_toNat_eq (by rw [toNat_headerOpc, hopc])), hctx,
    hsrc.trans (BitVec.eq_of_toNat_eq hsrc0.symm), hpayload⟩

/-! ### The statements about the commands -/

/-- Settles O15: the constants written out are those of `HashState.fresh`, and absorbing no data keeps it. -/
theorem initCreatesTheContextAfresh : Obligations.InitCreatesTheContextAfresh := by
  unfold Obligations.InitCreatesTheContextAfresh
  intro s c data
  refine ⟨exec_init_of_lt data, fun hc => ⟨_, exec_init_of_lt [] hc, ?_⟩,
    fun hc => exec_eq_of_indices_invalid (decide_eq_false (Nat.not_lt.mpr hc)),
    s.runsFrames_withPayload (k := opcInit) (.inl rfl) fun _ _ => ⟨rfl, rfl, rfl, rfl⟩⟩
  rw [absorb_nil (by decide)]
  exact s.setCtx_ctx_self c HashState.fresh hc

/-- Settles O17: ABSORB on a slot, on an index at or above NCTX, and as a frame. -/
theorem absorbAppendsToTheContext : Obligations.AbsorbAppendsToTheContext := by
  unfold Obligations.AbsorbAppendsToTheContext
  intro s c data
  exact ⟨fun S hS => exec_absorb_of_ctx data hS,
    fun hc => exec_eq_of_indices_invalid (decide_eq_false (Nat.not_lt.mpr hc)),
    s.runsFrames_withPayload (k := opcAbsorb) (.inr (.inl rfl)) fun _ _ => ⟨rfl, rfl, rfl, rfl⟩⟩

/-- Settles O19: the slot is written with the value it holds. -/
theorem absorbOfNothingIsNoChange : Obligations.AbsorbOfNothingIsNoChange := by
  unfold Obligations.AbsorbOfNothingIsNoChange
  refine ⟨fun S hS => absorb_nil hS, fun s c S hS hlen => ?_⟩
  rw [exec_absorb_of_ctx [] hS, absorb_nil hlen, State.set_of_ctx hS]

/-- Settles O23: the slot written holds the counter advanced by the number of bytes. -/
theorem counterWraps : Obligations.CounterWraps := by
  unfold Obligations.CounterWraps
  intro s c S data hS
  exact ⟨_, _, exec_absorb_of_ctx data hS, s.setCtx_ctx_self c _ ((s.ctx_isSome_iff c).mp ⟨S, hS⟩),
    toNat_absorb_totalLength S data, rfl⟩

end Sys2Proof.Machine

/-! Proofs about FINALIZE: the padding, the padded tail as blocks, the bytes of the digest, and the command on a
context and as a frame (41_finalize.md). -/

namespace Sys2Proof.Machine

/-! ### The padding (R121) -/

/-- The number of zeros is the only one below 64 that brings the length to 56 modulo 64. -/
theorem padZeros_eq {S : HashState} {k : Nat} (hk : k < 64) (h : (S.bufferLength + 1 + k) % 64 = 56) :
    padZeros S = k := by
  rw [padZeros]
  omega

theorem bitCount_eq_ofNat (n : Count) : n * 8#64 = BitVec.ofNat 64 (n.toNat * 8) :=
  BitVec.eq_of_toNat_eq (by simp)

/-- A multiple of 2^61 bytes is a multiple of 2^64 bits, so the bit count does not see it. -/
theorem bitCount_add_of_dvd {m : Nat} (hm : 2 ^ 61 ∣ m) (n : Count) : (n + BitVec.ofNat 64 m) * 8#64 = n * 8#64 := by
  have hzero : BitVec.ofNat 64 (m * 8) = 0#64 := by
    refine BitVec.eq_of_toNat_eq ?_
    rw [BitVec.toNat_ofNat, BitVec.toNat_ofNat]
    omega
  rw [BitVec.add_mul, ← BitVec.ofNat_mul, hzero, BitVec.add_zero]

/-- The number of zeros does not depend on the counter. -/
theorem pad_with_totalLength (S : HashState) (n : Count) :
    pad { S with totalLength := n } = [0x80#8] ++ List.replicate (padZeros S) 0x00#8 ++ le 8 (n * 8#64) := rfl

/-- Settles O27: the zeros by `padZeros_eq`, the bit count by `bitCount_eq_ofNat` and `bitCount_add_of_dvd`. -/
theorem paddingAsRuled : Obligations.PaddingAsRuled := by
  unfold Obligations.PaddingAsRuled
  refine ⟨fun S k hk h => ?_, fun S hS => padZeros_eq (by omega) (by omega),
    fun S hlo hhi => padZeros_eq (by omega) (by omega), fun S top => ?_⟩
  · rw [pad, padZeros_eq hk h, bitCount_eq_ofNat]
  · rw [pad_with_totalLength, bitCount_add_of_dvd (Nat.dvd_mul_left _ _), pad]

/-! ### The padded tail as blocks (R122) -/

theorem length_paddedTail (S : HashState) : (S.buffer ++ pad S).length = S.bufferLength + 1 + padZeros S + 8 := by
  simp only [pad, HashState.bufferLength, List.length_append, List.length_singleton, List.length_replicate, length_le]
  omega

theorem finalize_of_one_block {S : HashState} {b : List Byte} (hb : b.length = 64) (h : S.buffer ++ pad S = b) :
    finalize S = digestBytes (compress S.acc b) := by
  simp only [finalize, h]
  rw [if_neg (by omega), slice_zero_length b 64 hb.symm]

theorem finalize_of_two_blocks {S : HashState} {b₁ b₂ : List Byte} (h₁ : b₁.length = 64) (h₂ : b₂.length = 64)
    (h : S.buffer ++ pad S = b₁ ++ b₂) : finalize S = digestBytes (compress (compress S.acc b₁) b₂) := by
  have hfirst : slice (b₁ ++ b₂) 0 64 = b₁ := by
    rw [slice_append_left _ _ _ _ h₁.ge, slice_zero_length b₁ 64 h₁.symm]
  have hsecond : slice (b₁ ++ b₂) 64 128 = b₂ := by
    rw [slice_append_right _ _ _ _ h₁.le, h₁, slice_zero_length b₂ 64 h₂.symm]
  simp only [finalize, h]
  rw [if_pos (by rw [List.length_append, h₁, h₂]), hfirst, hsecond]

/-- Settles O29: at most 63 buffered bytes and their padding fill one block or two, and `finalize` compresses each. -/
theorem finalizeChainsThePaddedTail : Obligations.FinalizeChainsThePaddedTail := by
  unfold Obligations.FinalizeChainsThePaddedTail
  intro S blocks hS hblocks h
  have hcount : blocks.length = 1 ∨ blocks.length = 2 := by
    have hlen := length_paddedTail S
    rw [h, hblocks.length_flatten, padZeros] at hlen
    omega
  refine ⟨?_, hcount⟩
  obtain hone | htwo := hcount
  · obtain ⟨b, rfl⟩ := List.length_eq_one_iff.mp hone
    exact finalize_of_one_block (hblocks b (by simp)) (by simpa using h)
  · obtain ⟨b₁, b₂, rfl⟩ := List.length_eq_two.mp htwo
    exact finalize_of_two_blocks (hblocks b₁ (by simp)) (hblocks b₂ (by simp)) (by simpa using h)

/-! ### The bytes of the digest (R125) -/

@[simp] theorem length_digestBytes (acc : Accumulator) : (digestBytes acc).length = 16 := by simp [digestBytes]

theorem digestBytes_eq_flatMap (acc : Accumulator) : digestBytes acc = [acc.a, acc.b, acc.c, acc.d].flatMap (le 4) := by
  simp [digestBytes]

/-- In words written one after the other, n bytes each, byte n*i + j is byte j of word i. -/
theorem getElem?_flatMap_le {w n : Nat} (words : List (BitVec w)) {i j : Nat} (hi : i < words.length) (hj : j < n) :
    (words.flatMap (le n))[n * i + j]? = some ((words.getD i 0#w).extractLsb' (8 * j) 8) := by
  induction words generalizing i with
  | nil => cases hi
  | cons v words ih =>
    rw [List.flatMap_cons]
    cases i with
    | zero =>
      rw [Nat.mul_zero, Nat.zero_add, List.getElem?_append_left (by rwa [length_le]), getElem?_le n v j hj,
        List.getD_cons_zero]
    | succ i =>
      have hskip : n * (i + 1) + j = (le n v).length + (n * i + j) := by
        rw [length_le, Nat.mul_succ]
        omega
      rw [hskip, List.getElem?_append_right (Nat.le_add_right _ _), Nat.add_sub_cancel_left,
        ih (Nat.lt_of_succ_lt_succ hi), List.getD_cons_succ]

/-- Settles O30: the digest is the four words written one after the other, 4 bytes each. -/
theorem digestByteOrder : Obligations.DigestByteOrder := by
  unfold Obligations.DigestByteOrder
  intro acc i j hi hj
  exact ⟨length_digestBytes acc, by rw [digestBytes_eq_flatMap]; exact getElem?_flatMap_le _ hi hj⟩

@[simp] theorem length_finalize (S : HashState) : (finalize S).length = 16 := length_digestBytes _

/-! ### The command on a context and as a frame (R120) -/

/-- A response frame as stream bytes: the status, the opcode echo, the two bytes of RLEN, the payload. -/
theorem Response.encode_eq (r : Response) :
    r.encode = [r.status.code, r.ropc, BitVec.ofNat 8 r.payload.length, BitVec.ofNat 8 (r.payload.length / 256)] ++
      r.payload := by
  have hlow : (BitVec.ofNat 16 r.payload.length).extractLsb' 0 8 = BitVec.ofNat 8 r.payload.length :=
    BitVec.eq_of_toNat_eq (by simp)
  have hhigh : (BitVec.ofNat 16 r.payload.length).extractLsb' 8 8 = BitVec.ofNat 8 (r.payload.length / 256) := by
    refine BitVec.eq_of_toNat_eq ?_
    simp only [BitVec.extractLsb'_toNat, BitVec.toNat_ofNat, Nat.shiftRight_eq_div_pow]
    omega
  rw [Response.encode, Response.header, le_four_fields, hlow, hhigh]

/-- An OK response with its payload, as bytes at the end of the response stream. -/
theorem complete_eq_bytes (opc : Byte) (payload : List Byte) (s : State) :
    complete opc payload s = .next { s with
      rsp := s.rsp ++ [0x00#8, opc, BitVec.ofNat 8 payload.length, BitVec.ofNat 8 (payload.length / 256)] ++
        payload } := by
  rw [complete_eq, State.emit, Response.encode_eq, List.append_assoc]
  rfl

theorem exec_finalize_of_ctx {s : State} {c : CtxIndex} {S : HashState} (hS : s.ctx c = some S) :
    exec (.finalize c) s = .next { s with rsp := s.rsp ++ [0x00#8, 0x03#8, 0x10#8, 0x00#8] ++ finalize S } := by
  have hexec : exec (.finalize c) s = complete opcFinalize (finalize S) s :=
    onContext_of_some opcFinalize c s _ S hS
  rw [hexec, complete_eq_bytes, length_finalize]
  rfl

/-- FINALIZE and EXPORT: the frame is bad where CTX is at or above NCTX, SRC is not 0 or LEN is not 0
(30_encoding.md R75). -/
theorem State.runsFrames_bare (s : State) {k : Byte} {mk : CtxIndex → Instr} (hk : k.toNat = 3 ∨ k.toNat = 4)
    (hmk : ∀ c, (mk c).opcode = k ∧ (mk c).ctx = c ∧ (mk c).src = 0 ∧ (mk c).payload = []) :
    s.RunsFrames k.toNat (fun ctx src len => s.contexts ≤ ctx ∨ src ≠ 0 ∨ len ≠ 0) (fun i _ _ => mk i) := by
  have hill (h : Word) (hopc : h.toNat % 256 = k.toNat) :
      (s.contexts ≤ h.toNat / 2 ^ 8 % 16 ∨ h.toNat / 2 ^ 12 % 16 ≠ 0 ∨ h.toNat / 2 ^ 16 ≠ 0) ↔
        illegalHeader s.contexts h := by
    simp only [illegalHeader]
    omega
  refine State.runsFrames_of_spells hill fun f hlen hopc hlegal => ?_
  obtain ⟨hopcode, hctx, hsrc, hpayload⟩ := hmk (headerCtx f.header)
  rw [← hill f.header hopc, ← toNat_headerSrc, ← headerLen_eq] at hlegal
  obtain ⟨-, hsrc0, hlen0⟩ : _ ∧ (headerSrc f.header).toNat = 0 ∧ headerLen f.header = 0 := by
    simpa only [not_or, not_not] using hlegal
  exact ⟨hopcode.trans (BitVec.eq_of_toNat_eq (by rw [toNat_headerOpc, hopc])), hctx,
    hsrc.trans (BitVec.eq_of_toNat_eq hsrc0.symm), hpayload.trans (nil_eq_payload hlen hlen0)⟩

/-- Settles O26: FINALIZE on a slot, on an index at or above NCTX, and as a frame. -/
theorem finalizeAnswersTheDigest : Obligations.FinalizeAnswersTheDigest := by
  unfold Obligations.FinalizeAnswersTheDigest
  intro s c
  exact ⟨fun S hS => ⟨length_finalize S, exec_finalize_of_ctx hS⟩,
    fun hc => exec_eq_of_indices_invalid (decide_eq_false (Nat.not_lt.mpr hc)),
    s.runsFrames_bare (k := opcFinalize) (.inl rfl) fun _ => ⟨rfl, rfl, rfl, rfl⟩⟩

end Sys2Proof.Machine

/-! Proofs about EXPORT, IMPORT and COPY: the blob decoded, the three commands on a context and as frames, and the
independence of copies (42_export_import_copy.md). -/

namespace Sys2Proof.Machine

/-! ### The blob decoded (R133) -/

/-- The fields of fixed width stand at their offsets, whatever follows them. -/
theorem fixedFields_append_slices (S : HashState) (tail : List Byte) :
    slice (fixedFields S ++ tail) 0 4 = le 4 S.acc.a ∧ slice (fixedFields S ++ tail) 4 8 = le 4 S.acc.b ∧
    slice (fixedFields S ++ tail) 8 12 = le 4 S.acc.c ∧ slice (fixedFields S ++ tail) 12 16 = le 4 S.acc.d ∧
    slice (fixedFields S ++ tail) 16 24 = le 8 S.totalLength := by
  simp [fixedFields, slice_append_left, slice_append_right, slice_zero_length]

/-- The length byte is the last of the 89; what fills the buffer region is not looked at. -/
theorem blobBufferLength_layout {S : HashState} {filler : List Byte} (hS : S.bufferLength ≤ 63)
    (hfill : filler.length = 64 - S.bufferLength) :
    blobBufferLength (fixedFields S ++ S.buffer ++ filler ++ [BitVec.ofNat 8 S.bufferLength]) = S.bufferLength := by
  have hbuf : S.buffer.length = S.bufferLength := rfl
  have hfront : (fixedFields S ++ S.buffer ++ filler).length = blobLengthOffset := by
    rw [List.length_append, List.length_append, length_fixedFields, hfill, hbuf, blobLengthOffset]
    omega
  rw [blobBufferLength, ← hfront, List.getD_eq_getElem?_getD, List.getElem?_concat_length, Option.getD_some,
    BitVec.toNat_ofNat, Nat.mod_eq_of_lt (by omega)]

/-- Decoding the layout of a state gives the state back, whatever the filler. -/
theorem deserialise_layout {S : HashState} {filler : List Byte} (hS : S.bufferLength ≤ 63)
    (hfill : filler.length = 64 - S.bufferLength) :
    deserialise (fixedFields S ++ S.buffer ++ filler ++ [BitVec.ofNat 8 S.bufferLength]) = S := by
  have hbuffer : slice (fixedFields S ++ S.buffer ++ filler ++ [BitVec.ofNat 8 S.bufferLength]) 24
      (24 + S.bufferLength) = S.buffer := by
    rw [List.append_assoc (fixedFields S ++ S.buffer)]
    exact slice_middle _ _ _ _ _ (length_fixedFields S).symm (by rw [length_fixedFields, HashState.bufferLength])
  rw [deserialise, blobBufferLength_layout hS hfill, hbuffer, List.append_assoc, List.append_assoc]
  obtain ⟨ha, hb, hc, hd, htotal⟩ := fixedFields_append_slices S
    (S.buffer ++ (filler ++ [BitVec.ofNat 8 S.bufferLength]))
  rw [ha, hb, hc, hd, htotal]
  simp only [unle_le (show 32 ≤ 8 * 4 by decide), unle_le (show 64 ≤ 8 * 8 by decide)]

/-- Settles O34: the layout is that of the state with these fields. -/
theorem deserialiseDecodesTheLayout : Obligations.DeserialiseDecodesTheLayout := by
  unfold Obligations.DeserialiseDecodesTheLayout
  intro a b c d total buffer filler hbuf hfill
  exact deserialise_layout (S := { acc := { a := a, b := b, c := c, d := d }, totalLength := total, buffer := buffer })
    hbuf hfill

/-! ### EXPORT (R130) -/

theorem exec_exportState_of_ctx {s : State} {c : CtxIndex} {S : HashState} (hS : s.ctx c = some S)
    (hlen : S.bufferLength ≤ 63) :
    exec (.exportState c) s = .next { s with rsp := s.rsp ++ [0x00#8, 0x04#8, 0x59#8, 0x00#8] ++ serialise S } := by
  have hexec : exec (.exportState c) s = complete opcExport (serialise S) s :=
    onContext_of_some opcExport c s _ S hS
  rw [hexec, complete_eq_bytes, length_serialise hlen]
  rfl

/-- Settles O32: EXPORT on a slot, on an index at or above NCTX, and as a frame. -/
theorem exportAnswersTheBlob : Obligations.ExportAnswersTheBlob := by
  unfold Obligations.ExportAnswersTheBlob
  intro s c
  exact ⟨fun S hS hlen => ⟨length_serialise hlen, exec_exportState_of_ctx hS hlen⟩,
    fun hc => exec_eq_of_indices_invalid (decide_eq_false (Nat.not_lt.mpr hc)),
    s.runsFrames_bare (k := opcExport) (.inr rfl) fun _ => ⟨rfl, rfl, rfl, rfl⟩⟩

/-! ### IMPORT (R132) -/

theorem blobBufferLength_eq {blob : List Byte} {last : Byte} (h : blob[88]? = some last) :
    blobBufferLength blob = last.toNat := by
  rw [blobBufferLength, blobLengthOffset, List.getD_eq_getElem?_getD, h, Option.getD_some]

/-- The buffer decoded is as long as the length byte says, where that is at most the 64 bytes of its region. -/
theorem deserialise_bufferLength {blob : List Byte} (hsize : blob.length = 89) (hlast : blobBufferLength blob ≤ 64) :
    (deserialise blob).bufferLength = blobBufferLength blob := by
  rw [HashState.bufferLength, deserialise, length_slice]
  omega

/-- On a valid index IMPORT makes its two checks on the blob. -/
theorem exec_importState_of_lt {s : State} {c : CtxIndex} (blob : List Byte) (hc : c.toNat < s.contexts) :
    exec (.importState c blob) s =
      if blob.length ≠ 89 then raise .invalidStateSize opcImport s
      else if 63 < blobBufferLength blob then raise .invalidStateField opcImport s
      else complete opcImport [] (s.setCtx c (deserialise blob)) := by
  obtain ⟨S, hS⟩ := (s.ctx_isSome_iff c).mpr hc
  exact onContext_of_some opcImport c s _ S hS

/-- Settles O35: the index first, then the two checks in the order of `exec_importState_of_lt`, and as a frame. -/
theorem importChecksInOrderThenInstalls : Obligations.ImportChecksInOrderThenInstalls := by
  unfold Obligations.ImportChecksInOrderThenInstalls
  intro s c blob
  refine ⟨fun hc => exec_eq_of_indices_invalid (decide_eq_false (Nat.not_lt.mpr hc)), fun hc hsize => ?_,
    fun last hc hsize hlast hbad => ?_, fun last hc hsize hlast hgood => ?_,
    s.runsFrames_withPayload (k := opcImport) (.inr (.inr rfl)) fun _ _ => ⟨rfl, rfl, rfl, rfl⟩⟩
  · rw [exec_importState_of_lt blob hc, if_pos hsize, raise_eq_bytes]
    rfl
  · rw [exec_importState_of_lt blob hc, if_neg (not_not_intro hsize), blobBufferLength_eq hlast, if_pos (by omega),
      raise_eq_bytes]
    rfl
  · have hlen : blobBufferLength blob = last.toNat := blobBufferLength_eq hlast
    refine ⟨?_, (deserialise_bufferLength hsize (by omega)).trans hlen⟩
    rw [exec_importState_of_lt blob hc, if_neg (not_not_intro hsize), if_neg (by omega), complete_setCtx]
    rfl

/-! ### COPY (R138, R139) -/

theorem exec_copy_of_ctx {s : State} {d src : CtxIndex} {S : HashState} (hd : d.toNat < s.contexts)
    (hS : s.ctx src = some S) :
    exec (.copy d src) s = .next { s with
      ctxs := s.ctxs.set d.toNat S
      rsp := s.rsp ++ [0x00#8, 0x06#8, 0x00#8, 0x00#8] } := by
  obtain ⟨T, hT⟩ := (s.ctx_isSome_iff d).mpr hd
  calc exec (.copy d src) s
      = onContext opcCopy src s fun S => complete opcCopy [] (s.setCtx d S) := onContext_of_some opcCopy d s _ T hT
    _ = complete opcCopy [] (s.setCtx d S) := onContext_of_some opcCopy src s _ S hS
    _ = _ := complete_setCtx opcCopy s d S

/-- A COPY frame is bad where CTX or SRC is at or above NCTX or LEN is not 0 (30_encoding.md R75). -/
theorem State.runsFrames_copy (s : State) :
    s.RunsFrames 6 (fun i j len => s.contexts ≤ i ∨ s.contexts ≤ j ∨ len ≠ 0) (fun i j _ => .copy i j) := by
  have hill (h : Word) (hopc : h.toNat % 256 = 6) :
      (s.contexts ≤ h.toNat / 2 ^ 8 % 16 ∨ s.contexts ≤ h.toNat / 2 ^ 12 % 16 ∨ h.toNat / 2 ^ 16 ≠ 0) ↔
        illegalHeader s.contexts h := by
    simp only [illegalHeader]
    omega
  refine State.runsFrames_of_spells hill fun f hlen hopc hlegal => ?_
  have hlen0 : headerLen f.header = 0 := by
    by_contra hne
    exact hlegal ((hill f.header hopc).mp (.inr (.inr (headerLen_eq f.header ▸ hne))))
  have hopcode : (headerOpc f.header).toNat = opcCopy.toNat := (toNat_headerOpc f.header).trans hopc
  exact ⟨(BitVec.eq_of_toNat_eq hopcode).symm, rfl, rfl, nil_eq_payload hlen hlen0⟩

/-- Settles O39: COPY on two slots, on one slot, on an index at or above NCTX in either place, and as a frame. -/
theorem copyDuplicatesTheContext : Obligations.CopyDuplicatesTheContext := by
  unfold Obligations.CopyDuplicatesTheContext
  intro s d src
  refine ⟨fun S hd hS => exec_copy_of_ctx hd hS, fun hd => ?_, fun hbad => exec_eq_of_indices_invalid ?_,
    s.runsFrames_copy⟩
  · obtain ⟨S, hS⟩ := (s.ctx_isSome_iff d).mpr hd
    rw [exec_copy_of_ctx hd hS, State.set_of_ctx hS]
  · obtain hd | hsrc := hbad
    · exact Bool.and_eq_false_iff.mpr (.inl (decide_eq_false (Nat.not_lt.mpr hd)))
    · exact Bool.and_eq_false_iff.mpr (.inr (decide_eq_false (Nat.not_lt.mpr hsrc)))

/-- A program keeps every context that none of its commands writes (10_state.md R38). -/
theorem execAll_keeps_unwritten {program : List Instr} {c : CtxIndex}
    (h : ∀ i ∈ program, writtenContext i ≠ some c) (s : State) : (execAll program s).ctx c = s.ctx c := by
  induction program generalizing s with
  | nil => rfl
  | cons i more ih =>
    obtain ⟨hi, hmore⟩ := List.forall_mem_cons.mp h
    rw [execAll]
    split
    next t ht => rw [ih hmore t, (exec_keeps_unwritten ht).2 c hi]
    next => rfl
    next => rfl

/-- Settles O41: COPY writes its destination alone, and a program keeps each context that no command of it writes. -/
theorem copiesAreIndependent : Obligations.CopiesAreIndependent := by
  unfold Obligations.CopiesAreIndependent
  intro s t d src program hne hcopy
  have hsrc : t.ctx src = s.ctx src := (exec_keeps_unwritten hcopy).2 src fun h => hne (Option.some.inj h)
  exact ⟨fun h => (execAll_keeps_unwritten h t).trans hsrc, fun h => execAll_keeps_unwritten h t⟩

end Sys2Proof.Machine

/-! Proofs about the responses: the commands that cannot fail (60_exceptions.md R196), and the list of the responses
that can be (30_encoding.md R79, 60_exceptions.md R184). -/

namespace Sys2Proof.Machine

/-! ### The list of responses (R79) -/

/-- The response's header is one of the list. -/
def Response.Listed (r : Response) : Prop := possibleResponse r.status.code r.ropc r.payload.length

/-- An illegal command is answered alike whatever its opcode byte. -/
theorem Response.listed_illegalCommand (opc : Byte) :
    ({ status := .illegalCommand, ropc := opc, payload := [] } : Response).Listed := by
  simp [Response.Listed, possibleResponse, Status.code]

/-- The two errors of IMPORT's own (60_exceptions.md R181, R182). -/
theorem Response.listed_importError {e : Status} (he : e = .invalidStateSize ∨ e = .invalidStateField) :
    ({ status := e, ropc := opcImport, payload := [] } : Response).Listed := by
  obtain rfl | rfl := he <;> simp [Response.Listed, possibleResponse, Status.code, opcImport]

/-- The commands that return nothing. -/
theorem Response.listed_ok_nil {opc : Byte} (hopc : opc ∈ [opcInit, opcAbsorb, opcImport, opcCopy]) :
    ({ status := .ok, ropc := opc, payload := [] } : Response).Listed := by
  simpa [Response.Listed, possibleResponse, Status.code, opcInit, opcAbsorb, opcImport, opcCopy] using hopc

theorem Response.listed_digest (S : HashState) :
    ({ status := .ok, ropc := opcFinalize, payload := finalize S } : Response).Listed :=
  .inr (.inr (.inl ⟨rfl, rfl, length_finalize S⟩))

theorem Response.listed_blob {S : HashState} (hS : S.bufferLength ≤ 63) :
    ({ status := .ok, ropc := opcExport, payload := serialise S } : Response).Listed :=
  .inr (.inr (.inr (.inl ⟨rfl, rfl, length_serialise hS⟩)))

/-- The list has no header with the reserved status. -/
theorem Response.Listed.status_ne_typeError {r : Response} (h : r.Listed) : r.status.code ≠ 0x02#8 := by
  intro hstatus
  simp [Response.Listed, possibleResponse, hstatus] at h

theorem State.mem_ctxs_of_ctx {s : State} {c : CtxIndex} {S : HashState} (hS : s.ctx c = some S) : S ∈ s.ctxs :=
  List.mem_of_getElem? hS

/-! ### The commands on valid indices -/

/-- With valid indices every command but IMPORT completes; where no buffer is above 63 bytes (10_state.md R26), its
response is of the list. -/
theorem exec_completes_of_indices_valid {i : Instr} {s : State} (hvalid : i.indicesValid s.contexts = true)
    (himport : ∀ c blob, i ≠ .importState c blob) :
    ∃ payload u, exec i s = complete i.opcode payload u ∧ u.rsp = s.rsp ∧
      ((∀ S ∈ s.ctxs, S.bufferLength ≤ 63) →
        ({ status := .ok, ropc := i.opcode, payload := payload } : Response).Listed) := by
  have slot {c : CtxIndex} (hc : decide (c.toNat < s.contexts) = true) : ∃ S, s.ctx c = some S :=
    (s.ctx_isSome_iff c).mpr (of_decide_eq_true hc)
  cases i with
  | init c data =>
    obtain ⟨S, hS⟩ := slot hvalid
    exact ⟨_, _, onContext_of_some opcInit c s _ S hS, rfl,
      fun _ => Response.listed_ok_nil (opc := opcInit) (by decide)⟩
  | absorb c data =>
    obtain ⟨S, hS⟩ := slot hvalid
    exact ⟨_, _, onContext_of_some opcAbsorb c s _ S hS, rfl,
      fun _ => Response.listed_ok_nil (opc := opcAbsorb) (by decide)⟩
  | finalize c =>
    obtain ⟨S, hS⟩ := slot hvalid
    exact ⟨_, _, onContext_of_some opcFinalize c s _ S hS, rfl, fun _ => Response.listed_digest S⟩
  | exportState c =>
    obtain ⟨S, hS⟩ := slot hvalid
    exact ⟨_, _, onContext_of_some opcExport c s _ S hS, rfl,
      fun hbuf => Response.listed_blob (hbuf S (State.mem_ctxs_of_ctx hS))⟩
  | importState c blob => exact absurd rfl (himport c blob)
  | copy d src =>
    obtain ⟨hd, hsrc⟩ := Bool.and_eq_true_iff.mp hvalid
    obtain ⟨T, hT⟩ := slot hd
    obtain ⟨S, hS⟩ := slot hsrc
    exact ⟨_, _, (onContext_of_some opcCopy d s _ T hT).trans (onContext_of_some opcCopy src s _ S hS), rfl,
      fun _ => Response.listed_ok_nil (opc := opcCopy) (by decide)⟩

/-- Settles O44: the five commands complete, and to complete is to append one OK response. -/
theorem fiveCommandsCannotFail : Obligations.FiveCommandsCannotFail := by
  unfold Obligations.FiveCommandsCannotFail
  intro i s hvalid himport
  obtain ⟨payload, u, hexec, hrsp, -⟩ := exec_completes_of_indices_valid hvalid himport
  exact ⟨_, payload, hexec.trans (complete_eq _ _ _), by rw [State.emit_rsp, hrsp]⟩

/-! ### Every answer is of the list -/

/-- The outcome is a next state, whose response stream is `rsp` with one response of the list appended. -/
def AnswersListed (rsp : List Byte) (o : Result) : Prop :=
  ∃ (t : State) (r : Response), o = .next t ∧ t.rsp = rsp ++ r.encode ∧ r.Listed

theorem answersListed_complete {rsp : List Byte} {u : State} {opc : Byte} {payload : List Byte} (hrsp : u.rsp = rsp)
    (h : ({ status := .ok, ropc := opc, payload := payload } : Response).Listed) :
    AnswersListed rsp (complete opc payload u) :=
  ⟨_, _, complete_eq _ _ _, by rw [State.emit_rsp, hrsp], h⟩

theorem answersListed_raise {s : State} {e : Status} {opc : Byte}
    (h : ({ status := e, ropc := opc, payload := [] } : Response).Listed) : AnswersListed s.rsp (raise e opc s) :=
  ⟨_, _, raise_eq _ _ _, State.emit_rsp _ _, h⟩

/-- IMPORT into a valid index answers one of its three responses. -/
theorem exec_importState_answersListed {s : State} {c : CtxIndex} (blob : List Byte) (hc : c.toNat < s.contexts) :
    AnswersListed s.rsp (exec (.importState c blob) s) := by
  rw [exec_importState_of_lt blob hc]
  split_ifs
  · exact answersListed_raise (Response.listed_importError (.inl rfl))
  · exact answersListed_raise (Response.listed_importError (.inr rfl))
  · exact answersListed_complete rfl (Response.listed_ok_nil (by decide))

theorem exec_answersListed (i : Instr) {s : State} (hbuf : ∀ S ∈ s.ctxs, S.bufferLength ≤ 63) :
    AnswersListed s.rsp (exec i s) := by
  cases hvalid : i.indicesValid s.contexts with
  | false =>
    rw [exec_of_indices_invalid hvalid]
    exact answersListed_raise (Response.listed_illegalCommand _)
  | true =>
    by_cases himport : ∃ c blob, i = .importState c blob
    · obtain ⟨c, blob, rfl⟩ := himport
      exact exec_importState_answersListed blob (of_decide_eq_true hvalid)
    · obtain ⟨payload, u, hexec, hrsp, hlisted⟩ :=
        exec_completes_of_indices_valid hvalid fun c blob h => himport ⟨c, blob, h⟩
      rw [hexec]
      exact answersListed_complete hrsp (hlisted hbuf)

/-- A step waits, or answers the frame it takes with a response of the list. -/
theorem step_waits_or_answersListed {s : State} (hbuf : ∀ S ∈ s.ctxs, S.bufferLength ≤ 63) :
    step s = .next s ∨ AnswersListed s.rsp (step s) := by
  obtain ⟨-, hs⟩ | ⟨why, opc, rest, -, hs⟩ | ⟨i, rest, -, hs⟩ := step_cases s
  · exact .inl hs
  · rw [hs]
    exact .inr (answersListed_raise (s := s.withCmd rest) (Response.listed_illegalCommand opc))
  · rw [hs]
    exact .inr (exec_answersListed i (s := s.withCmd rest) hbuf)

/-- Settles O14: the invariant bounds the buffers, so that every answer is of the list, which has no status 0x02. -/
theorem everyStepAnswersOneListedResponse : Obligations.EveryStepAnswersOneListedResponse := by
  unfold Obligations.EveryStepAnswersOneListedResponse
  intro s t hinv h
  obtain ⟨-, -, hbuf, -⟩ := hinv
  obtain hwait | ⟨u, r, hu, hrsp, hlisted⟩ := step_waits_or_answersListed hbuf
  · exact .inl (Host.Outcome.next.inj (h.symm.trans hwait))
  · obtain rfl : t = u := Host.Outcome.next.inj (h.symm.trans hu)
    refine .inr ⟨r.status.code, r.ropc, r.payload, hlisted, hlisted.status_ne_typeError, ?_⟩
    rw [hrsp, Response.encode_eq, List.append_assoc]

end Sys2Proof.Machine

/-! Proofs about reset and waiting: the engine on an incomplete frame (70_reset_and_hazards.md R214), and a cycle with
the reset pin at 1 (R210, R211). -/

namespace Sys2Proof.Machine

/-! ### The step without a whole frame (R214) -/

theorem takeFrame_eq_none_of_short_header {bs : List Byte} (h : bs.length < 4) : takeFrame bs = none :=
  if_pos h

theorem takeFrame_eq_none_of_short_payload {h : Word} {part : List Byte} (hpart : part.length < headerLen h) :
    takeFrame (le 4 h ++ part) = none := by
  rw [takeFrame_header, if_pos hpart]

/-- With no whole frame on the command stream the step answers the same state. -/
theorem step_of_takeFrame_eq_none {s : State} (h : takeFrame s.cmd = none) : step s = .next s := by
  rw [step, nextCommand, h]

/-- Settles O12: neither an incomplete header nor an incomplete payload makes a whole frame. -/
theorem incompleteFrameWaits : Obligations.IncompleteFrameWaits := by
  unfold Obligations.IncompleteFrameWaits
  refine fun s => ⟨fun hshort => ?_, fun h part hcmd hpart => ?_⟩
  · exact step_of_takeFrame_eq_none (takeFrame_eq_none_of_short_header hshort)
  · rw [← headerLen_eq] at hpart
    exact step_of_takeFrame_eq_none (by rw [hcmd, takeFrame_eq_none_of_short_payload hpart])

/-! ### A cycle in reset (R210, R211) -/

section
variable {i : PinsIn} (hrst : i.rst = true) (s : State) (p : Pace)
include hrst

theorem State.cmdReady_of_rst : (s.pinsOut i p).cmdReady = false := by simp [State.pinsOut, hrst]

theorem State.rspValid_of_rst : (s.pinsOut i p).rspValid = false := by simp [State.pinsOut, hrst]

theorem State.cmdMoved_of_rst : s.cmdMoved i p = [] := by simp [State.cmdMoved, hrst]

theorem State.rspMoved_of_rst : s.rspMoved i p = [] := by simp [State.rspMoved, hrst]

end

/-- Settles O54: `rst` gates both outputs and both moves, and the cycle ends in the reset state. -/
theorem resetPinRestoresTheFreshState : Obligations.ResetPinRestoresTheFreshState := by
  unfold Obligations.ResetPinRestoresTheFreshState
  intro s i p hrst
  exact ⟨s.cmdReady_of_rst hrst p, s.rspValid_of_rst hrst p, s.cmdMoved_of_rst hrst p, s.rspMoved_of_rst hrst p,
    s.clock_reset i p hrst⟩

end Sys2Proof.Machine

/-! Proofs about the invariant and coherence: the reset state, every command, every step and every clock cycle keep
them (10_state.md R26, R29, R34). -/

namespace Sys2Proof.Machine

/-! ### The reset state (R34) -/

theorem nctx_pos : 1 ≤ nctx := Nat.le_add_left 1 _

theorem nctx_le : nctx ≤ 16 := Nat.succ_le_of_lt Config.moreContexts.isLt

theorem HashState.fresh_coherent : HashState.fresh.Coherent := by
  unfold HashState.Coherent
  decide

theorem State.resetOf_forall {P : HashState → Prop} (n : Nat) (h : P HashState.fresh) :
    ∀ S ∈ (State.resetOf n).ctxs, P S := by
  intro S hS
  rw [List.eq_of_mem_replicate hS]
  exact h

theorem State.resetOf_inv {n : Nat} (hlo : 1 ≤ n) (hhi : n ≤ 16) : (State.resetOf n).Inv := by
  refine ⟨by rwa [State.resetOf_contexts], by rwa [State.resetOf_contexts], State.resetOf_forall n (by decide),
    fun h => ?_⟩
  rw [State.resetOf_rspValid] at h
  cases h

/-- Settles O2: the reset state for the build's NCTX, which is one more than a number below 16. -/
theorem resetMeetsTheInvariant : Obligations.ResetMeetsTheInvariant := by
  unfold Obligations.ResetMeetsTheInvariant
  exact ⟨rfl, nctx_pos, nctx_le, State.resetOf_inv nctx_pos nctx_le,
    State.resetOf_forall nctx HashState.fresh_coherent⟩

/-! ### A property of every context, through the commands -/

/-- The outcome is a next state in which every context has the property. -/
def LeavesAll (P : HashState → Prop) (o : Result) : Prop :=
  ∃ t : State, o = .next t ∧ ∀ S ∈ t.ctxs, P S

theorem leavesAll_raise {P : HashState → Prop} {s : State} (e : Status) (opc : Byte) (hs : ∀ S ∈ s.ctxs, P S) :
    LeavesAll P (raise e opc s) :=
  ⟨_, raise_eq e opc s, hs⟩

theorem leavesAll_complete {P : HashState → Prop} {s : State} (opc : Byte) (payload : List Byte)
    (hs : ∀ S ∈ s.ctxs, P S) : LeavesAll P (complete opc payload s) :=
  ⟨_, complete_eq opc payload s, hs⟩

theorem leavesAll_onContext {P : HashState → Prop} {s : State} {opc : Byte} {c : CtxIndex} {k : HashState → Result}
    (hs : ∀ S ∈ s.ctxs, P S) (hk : ∀ S, s.ctx c = some S → LeavesAll P (k S)) :
    LeavesAll P (onContext opc c s k) := by
  obtain ⟨-, h⟩ | ⟨S, hS, h⟩ := onContext_cases opc c s k
  · rw [h]
    exact leavesAll_raise _ opc hs
  · rw [h]
    exact hk S hS

/-- A property of the fresh context that absorbing keeps, and that a blob about to be imported has, is a property of
every context after any command. -/
theorem exec_leavesAll {P : HashState → Prop} (hfresh : P HashState.fresh)
    (habsorb : ∀ S bytes, P S → P (absorb S bytes)) {i : Instr} {s : State}
    (himport : ∀ c blob, i = .importState c blob → blob.length = 89 → blobBufferLength blob ≤ 63 →
      P (deserialise blob))
    (hs : ∀ S ∈ s.ctxs, P S) : LeavesAll P (exec i s) := by
  cases i with
  | init c data =>
    exact leavesAll_onContext hs fun _ _ =>
      leavesAll_complete _ _ (s.setCtx_forall c _ hs (habsorb _ data hfresh))
  | absorb c data =>
    exact leavesAll_onContext hs fun S hS =>
      leavesAll_complete _ _ (s.setCtx_forall c _ hs (habsorb S data (hs S (State.mem_of_ctx hS))))
  | finalize c => exact leavesAll_onContext hs fun _ _ => leavesAll_complete _ _ hs
  | exportState c => exact leavesAll_onContext hs fun _ _ => leavesAll_complete _ _ hs
  | importState c blob =>
    refine leavesAll_onContext hs fun _ _ => ?_
    split_ifs with hsize hlast
    · exact leavesAll_raise _ _ hs
    · exact leavesAll_raise _ _ hs
    · exact leavesAll_complete _ _
        (s.setCtx_forall c _ hs (himport c blob rfl (not_not.mp hsize) (not_lt.mp hlast)))
  | copy d src =>
    exact leavesAll_onContext hs fun _ _ => leavesAll_onContext hs fun S hS =>
      leavesAll_complete _ _ (s.setCtx_forall d S hs (hs S (State.mem_of_ctx hS)))

/-- The same for a step, of which only an executed IMPORT needs its blob looked at. -/
theorem step_forall {P : HashState → Prop} (hfresh : P HashState.fresh)
    (habsorb : ∀ S bytes, P S → P (absorb S bytes)) {s t : State}
    (himport : ∀ c blob rest, nextCommand s.cmd = .command (.importState c blob) rest → blob.length = 89 →
      blobBufferLength blob ≤ 63 → P (deserialise blob))
    (hs : ∀ S ∈ s.ctxs, P S) (h : step s = .next t) : ∀ S ∈ t.ctxs, P S := by
  have hleaves : LeavesAll P (step s) := by
    obtain ⟨-, hstep⟩ | ⟨why, opc, rest, -, hstep⟩ | ⟨i, rest, hi, hstep⟩ := step_cases s
    · exact ⟨s, hstep, hs⟩
    · rw [hstep]
      exact leavesAll_raise (s := s.withCmd rest) _ opc hs
    · rw [hstep]
      refine exec_leavesAll (s := s.withCmd rest) hfresh habsorb (fun c blob hib => ?_) hs
      exact himport c blob rest (hib ▸ hi)
  obtain ⟨u, hu, hall⟩ := hleaves
  obtain rfl : t = u := Host.Outcome.next.inj (h.symm.trans hu)
  exact hall

/-! ### Buffers (R26) and coherence (R29) through `absorb` -/

theorem absorb_bufferLength (S : HashState) (bytes : List Byte) :
    (absorb S bytes).bufferLength = (S.bufferLength + bytes.length) % 64 := by
  rw [HashState.bufferLength, absorb_buffer, List.length_drop, List.length_append, HashState.bufferLength]
  omega

theorem absorb_bufferLength_le (S : HashState) (bytes : List Byte) : (absorb S bytes).bufferLength ≤ 63 := by
  rw [absorb_bufferLength]
  omega

/-- 64 divides 2^64, so the counter's wrap is not seen modulo 64. -/
theorem absorb_coherent {S : HashState} (bytes : List Byte) (hS : S.Coherent) : (absorb S bytes).Coherent := by
  unfold HashState.Coherent at hS ⊢
  rw [absorb_bufferLength, toNat_absorb_totalLength]
  omega

/-- Settles O4: absorbing keeps coherence, the fresh context has it, and no other value is written without IMPORT. -/
theorem stepKeepsCoherence : Obligations.StepKeepsCoherence := by
  unfold Obligations.StepKeepsCoherence
  refine ⟨fun S bytes hS => absorb_coherent bytes hS, fun s t hs hno h => ?_⟩
  exact step_forall HashState.fresh_coherent (fun _ bytes hS => absorb_coherent bytes hS)
    (fun c blob rest hib => absurd hib (hno c blob rest)) hs h

theorem step_buffers {s t : State} (hs : ∀ S ∈ s.ctxs, S.bufferLength ≤ 63) (h : step s = .next t) :
    ∀ S ∈ t.ctxs, S.bufferLength ≤ 63 :=
  step_forall (by decide) (fun S bytes _ => absorb_bufferLength_le S bytes)
    (fun _ _ _ _ hsize hlast => (deserialise_bufferLength hsize (by omega)).trans_le hlast) hs h

end Sys2Proof.Machine

/-! Proofs about one advance of the engine: what a command leaves unchanged, that every frame is answered, and the
invariant through a step and a clock cycle (10_state.md R26, 30_encoding.md R70, R86, 60_exceptions.md R186). -/

namespace Sys2Proof.Machine

/-! ### The frame of a command (60_exceptions.md R186) -/

/-- A command appends to the response stream and leaves the other two port fields alone. -/
theorem exec_streams {i : Instr} {s t : State} (h : exec i s = .next t) :
    t.cmd = s.cmd ∧ t.rspValid = s.rspValid ∧
    ∃ r : Response, t.rsp = s.rsp ++ r.encode ∧ r.ropc = i.opcode ∧
      (r.status ≠ .ok → t.ctxs = s.ctxs ∧ r.payload = []) := by
  obtain ⟨e, -, he⟩ | ⟨payload, -, he⟩ | ⟨c, S, -, he⟩ := exec_cases i s
  · obtain rfl := Host.Outcome.next.inj (h.symm.trans (he.trans (raise_eq _ _ _)))
    exact ⟨rfl, rfl, _, rfl, rfl, fun _ => ⟨rfl, rfl⟩⟩
  · obtain rfl := Host.Outcome.next.inj (h.symm.trans (he.trans (complete_eq _ _ _)))
    exact ⟨rfl, rfl, _, rfl, rfl, fun hne => absurd rfl hne⟩
  · obtain rfl := Host.Outcome.next.inj (h.symm.trans (he.trans (complete_eq _ _ _)))
    exact ⟨rfl, rfl, _, rfl, rfl, fun hne => absurd rfl hne⟩

/-- Settles O43: the streams by `exec_streams`, the contexts by `exec_keeps_unwritten`. -/
theorem commandFrame : Obligations.CommandFrame := by
  unfold Obligations.CommandFrame
  intro i s t h
  obtain ⟨hcmd, hvalid, hresponse⟩ := exec_streams h
  obtain ⟨hn, hctx⟩ := exec_keeps_unwritten h
  exact ⟨hcmd, hvalid, hn, hctx, hresponse⟩

/-! ### The engine's advance by one frame -/

theorem nextCommand_eq_waiting_iff (bs : List Byte) : nextCommand bs = .waiting ↔ takeFrame bs = none := by
  unfold nextCommand
  cases takeFrame bs with
  | none => simp
  | some taken =>
    obtain ⟨f, rest⟩ := taken
    cases hdec : decodeFrame f <;> simp [hdec]

theorem State.waiting_iff_takeFrame (s : State) : s.waiting = true ↔ takeFrame s.cmd = none := by
  rw [s.waiting_eq_true_iff, nextCommand_eq_waiting_iff]

theorem State.advance_of_waiting {s : State} (h : s.waiting = true) : s.advance = s :=
  State.advance_of_step (step_of_takeFrame_eq_none (s.waiting_iff_takeFrame.mp h))

/-- Every command answers a next state (60_exceptions.md R186, R187). -/
theorem exec_eq_next (i : Instr) (s : State) : ∃ t, exec i s = .next t := by
  obtain ⟨e, -, he⟩ | ⟨payload, -, he⟩ | ⟨c, S, -, he⟩ := exec_cases i s
  · exact ⟨_, he.trans (raise_eq _ _ _)⟩
  · exact ⟨_, he.trans (complete_eq _ _ _)⟩
  · exact ⟨_, he.trans (complete_eq _ _ _)⟩

/-- One whole frame is consumed, and one response that echoes its opcode byte is appended (30_encoding.md R70). -/
theorem State.advance_of_frame {s : State} {f : Frame} {rest : List Byte} (h : takeFrame s.cmd = some (f, rest)) :
    step s = .next s.advance ∧ s.advance.cmd = rest ∧ s.advance.rspValid = s.rspValid ∧
    ∃ r : Response, s.advance.rsp = s.rsp ++ r.encode ∧ r.ropc = headerOpc f.header := by
  obtain ⟨hcmd, hlen⟩ := takeFrame_eq_some h
  obtain ⟨hok, herror⟩ := step_of_frame hcmd hlen
  cases hdec : decodeFrame f with
  | error why =>
    have hstep := (herror why hdec).trans (raise_eq _ _ _)
    rw [State.advance_of_step hstep]
    exact ⟨hstep, rfl, rfl, _, rfl, rfl⟩
  | ok i =>
    obtain ⟨t, ht⟩ := exec_eq_next i (s.withCmd rest)
    obtain ⟨hcmd', hvalid, r, hrsp, hecho, -⟩ := exec_streams ht
    have hstep := (hok i hdec).trans ht
    rw [State.advance_of_step hstep]
    exact ⟨hstep, hcmd', hvalid, r, hrsp, hecho.trans (spells_of_decodeFrame hlen hdec).opcode⟩

/-- Everything one advance can do: wait, or take one frame. -/
theorem State.advance_cases (s : State) :
    (s.waiting = true ∧ s.advance = s) ∨
    (∃ f rest, takeFrame s.cmd = some (f, rest) ∧ s.waiting = false) := by
  cases h : takeFrame s.cmd with
  | none =>
    have hwait := s.waiting_iff_takeFrame.mpr h
    exact .inl ⟨hwait, State.advance_of_waiting hwait⟩
  | some taken => exact .inr ⟨_, _, rfl, Bool.eq_false_iff.mpr fun hw => by simp [s.waiting_iff_takeFrame.mp hw] at h⟩

theorem State.step_eq_advance (s : State) : step s = .next s.advance := by
  obtain ⟨hwait, hadv⟩ | ⟨f, rest, htake, -⟩ := s.advance_cases
  · rw [hadv]
    exact step_of_takeFrame_eq_none (s.waiting_iff_takeFrame.mp hwait)
  · exact (State.advance_of_frame htake).1

@[simp] theorem State.advance_rspValid (s : State) : s.advance.rspValid = s.rspValid := by
  obtain ⟨-, hadv⟩ | ⟨f, rest, htake, -⟩ := s.advance_cases
  · rw [hadv]
  · obtain ⟨-, -, hvalid, -⟩ := State.advance_of_frame htake
    exact hvalid

/-- Executing only adds response bytes, behind those that are there. -/
theorem State.rsp_prefix_advance (s : State) : s.rsp <+: s.advance.rsp := by
  obtain ⟨-, hadv⟩ | ⟨f, rest, htake, -⟩ := s.advance_cases
  · rw [hadv]
  · obtain ⟨-, -, -, r, hrsp, -⟩ := State.advance_of_frame htake
    exact ⟨_, hrsp.symm⟩

/-! ### The invariant through a step and a cycle (R26, R86) -/

theorem State.Inv.advance {s : State} (h : s.Inv) : s.advance.Inv := by
  obtain ⟨hlo, hhi, hbuf, hvalid⟩ := h
  have hn : s.advance.contexts = s.contexts := (stepWritesOnlyTheNamedContext s s.advance s.step_eq_advance).1
  refine ⟨hn ▸ hlo, hn ▸ hhi, step_buffers hbuf s.step_eq_advance, fun hv => ?_⟩
  rw [State.advance_rspValid] at hv
  exact s.rsp_prefix_advance.ne_nil (hvalid hv)

theorem State.Inv.work {s : State} (h : s.Inv) (n : Nat) : (s.work n).Inv :=
  State.work_induction (fun _ hs _ => hs.advance) n s h

theorem State.rspMoved_cases (s : State) (i : PinsIn) (p : Pace) :
    (i.rst = false ∧ s.rspValid = true ∧ i.rspReady = true ∧ s.rspMoved i p = [s.rsp.headD p.idleData]) ∨
    (¬ (i.rst = false ∧ s.rspValid = true ∧ i.rspReady = true) ∧ s.rspMoved i p = []) := by
  by_cases h : i.rst = false ∧ s.rspValid = true ∧ i.rspReady = true
  · obtain ⟨hrst, hvalid, hready⟩ := h
    exact .inl ⟨hrst, hvalid, hready, by simp [State.rspMoved, State.pinsOut, hrst, hvalid, hready]⟩
  · exact .inr ⟨h, if_neg fun hmove => h (by simpa [State.pinsOut, and_assoc, and_comm, and_left_comm] using hmove)⟩

theorem State.Inv.moveBytes {s : State} (h : s.Inv) (i : PinsIn) (p : Pace) : (s.moveBytes i p).Inv := by
  obtain ⟨hlo, hhi, hbuf, hvalid⟩ := h
  refine ⟨hlo, hhi, hbuf, fun hv => ?_⟩
  obtain ⟨hv', hmoved⟩ := Bool.and_eq_true_iff.mp hv
  rw [State.moveBytes_rsp, List.isEmpty_iff.mp hmoved]
  exact hvalid hv'

theorem State.Inv.offerNext {s : State} (h : s.Inv) (p : Pace) : (s.offerNext p).Inv := by
  obtain ⟨hlo, hhi, hbuf, hvalid⟩ := h
  refine ⟨hlo, hhi, hbuf, fun hv => ?_⟩
  obtain hv | hv := Bool.or_eq_true_iff.mp hv
  · exact hvalid hv
  · simpa using (Bool.and_eq_true_iff.mp hv).2

theorem State.Inv.clock {s : State} (h : s.Inv) (i : PinsIn) (p : Pace) : (s.clock i p).Inv := by
  cases hrst : i.rst with
  | true =>
    rw [s.clock_reset i p hrst]
    exact State.resetOf_inv h.1 h.2.1
  | false =>
    rw [s.clock_run i p hrst]
    exact ((h.moveBytes i p).work _).offerNext p

/-- Settles O3: a step is one advance, and a cycle is moved bytes, advances and an offer, or a reset. -/
theorem everyStepKeepsTheInvariant : Obligations.EveryStepKeepsTheInvariant := by
  unfold Obligations.EveryStepKeepsTheInvariant
  refine ⟨fun s t hs h => ?_, fun s i p hs => hs.clock i p⟩
  rw [← State.advance_of_step h]
  exact hs.advance

end Sys2Proof.Machine

/-! Proofs about encoding: `le` and `unle`, the encoder against the decoder, and response frames read back
(00_scope.md R9, 30_encoding.md R71 to R77, R80, R82). -/

namespace Sys2Proof

/-- Settles O5: `unle_le` and `le_unle`, with the width that holds the bytes exactly. -/
theorem unleInvertsLe : Obligations.UnleInvertsLe := by
  unfold Obligations.UnleInvertsLe
  refine ⟨fun n v => ⟨length_le n v, fun i hi => getElem?_le n v i hi, ?_, unle_le le_rfl v⟩,
    fun n s hs => le_unle hs le_rfl⟩
  rw [unleNat_le, Nat.mod_eq_of_lt v.isLt]

/-! ### The header word and its fields (R72) -/

theorem headerLen_lt (h : Word) : headerLen h < 2 ^ 16 := BitVec.isLt _

section
variable (opc : Byte) (ctx src : CtxIndex) (len : BitVec 16)

@[simp] theorem headerOpc_headerWord : headerOpc (headerWord opc ctx src len) = opc := by
  rw [headerOpc, headerWord, extract_append_low _ _ _ _ (by omega), BitVec.extractLsb'_eq_self]

@[simp] theorem headerCtx_headerWord : headerCtx (headerWord opc ctx src len) = ctx := by
  rw [headerCtx, headerWord, extract_append_high _ _ _ _ (by omega), extract_append_low _ _ _ _ (by omega),
    BitVec.extractLsb'_eq_self]

@[simp] theorem headerSrc_headerWord : headerSrc (headerWord opc ctx src len) = src := by
  rw [headerSrc, headerWord, extract_append_high _ _ _ _ (by omega), extract_append_high _ _ _ _ (by omega),
    extract_append_low _ _ _ _ (by omega), BitVec.extractLsb'_eq_self]

@[simp] theorem headerLen_headerWord : headerLen (headerWord opc ctx src len) = len.toNat := by
  rw [headerLen, headerWord, extract_append_high _ _ _ _ (by omega), extract_append_high _ _ _ _ (by omega),
    extract_append_high _ _ _ _ (by omega), BitVec.extractLsb'_eq_self]

end

/-- A word is determined by the fields of R72, which cover its 32 bits. -/
theorem eq_headerWord (h : Word) :
    h = headerWord (headerOpc h) (headerCtx h) (headerSrc h) (BitVec.ofNat 16 (headerLen h)) := by
  set w := headerWord (headerOpc h) (headerCtx h) (headerSrc h) (BitVec.ofNat 16 (headerLen h)) with hw
  have hopc : (headerOpc w).toNat = (headerOpc h).toNat := by rw [hw, headerOpc_headerWord]
  have hctx : (headerCtx w).toNat = (headerCtx h).toNat := by rw [hw, headerCtx_headerWord]
  have hsrc : (headerSrc w).toNat = (headerSrc h).toNat := by rw [hw, headerSrc_headerWord]
  have hlen : headerLen w = headerLen h := by
    rw [hw, headerLen_headerWord, BitVec.toNat_ofNat, Nat.mod_eq_of_lt (headerLen_lt h)]
  rw [toNat_headerOpc, toNat_headerOpc] at hopc
  rw [toNat_headerCtx, toNat_headerCtx] at hctx
  rw [toNat_headerSrc, toNat_headerSrc] at hsrc
  rw [headerLen_eq, headerLen_eq] at hlen
  refine BitVec.eq_of_toNat_eq ?_
  omega

/-! ### Encode, then decode -/

/-- Only the payload length can keep a command from fitting a frame. -/
theorem Instr.wellFormed_iff (i : Instr) : i.wellFormed = true ↔ i.payload.length ≤ 65535 := by
  cases i <;> simp [Instr.wellFormed, Instr.payload]

/-- The frame the encoder writes. -/
def Instr.frame (i : Instr) : Frame := { header := i.header, payload := i.payload }

theorem encode_eq_frame (i : Instr) : encode i = le 4 i.frame.header ++ i.frame.payload := rfl

theorem Instr.spells_frame (i : Instr) : i.Spells i.frame := by
  constructor <;> simp [Instr.frame, Instr.header]

theorem Instr.length_frame_payload {i : Instr} (h : i.wellFormed = true) :
    i.frame.payload.length = headerLen i.frame.header := by
  have hlen := i.wellFormed_iff.mp h
  simp only [Instr.frame, Instr.header, headerLen_headerWord, BitVec.toNat_ofNat]
  omega

theorem nextCommand_of_decodeFrame {bs rest : List Byte} {f : Frame} {i : Instr}
    (htake : takeFrame bs = some (f, rest)) (hdec : decodeFrame f = .ok i) : nextCommand bs = .command i rest := by
  simp [nextCommand, htake, hdec]

theorem nextCommand_of_spells {i : Instr} {f : Frame} (hlen : f.payload.length = headerLen f.header)
    (h : i.Spells f) (rest : List Byte) : nextCommand (le 4 f.header ++ f.payload ++ rest) = .command i rest :=
  nextCommand_of_decodeFrame (takeFrame_whole _ _ rest hlen) (decodeFrame_of_spells hlen h)

/-- Settles O6: the encoder's frame spells the command, and its LEN field holds the payload length. -/
theorem decodeOfEncodeIsTheCommand : Obligations.DecodeOfEncodeIsTheCommand := by
  unfold Obligations.DecodeOfEncodeIsTheCommand
  intro i rest hwf
  rw [encode_eq_frame]
  exact nextCommand_of_spells (Instr.length_frame_payload hwf) i.spells_frame rest

/-! ### Decode, then encode -/

theorem nextCommand_eq_command {bs : List Byte} {i : Instr} {rest : List Byte} (h : nextCommand bs = .command i rest) :
    ∃ f, takeFrame bs = some (f, rest) ∧ decodeFrame f = .ok i := by
  unfold nextCommand at h
  split at h
  next => cases h
  next f rest' htake =>
    split at h
    next j hdec =>
      cases h
      exact ⟨f, htake, hdec⟩
    next => cases h

/-- A frame that spells a command is the frame the encoder writes. -/
theorem Instr.Spells.eq_frame {i : Instr} {f : Frame} (h : i.Spells f)
    (hlen : f.payload.length = headerLen f.header) : f = i.frame := by
  obtain ⟨hopc, hctx, hsrc, hpay⟩ := h
  have hheader : i.header = f.header := by
    rw [Instr.header, hopc, hctx, hsrc, hpay, hlen, ← eq_headerWord]
  rw [Instr.frame, hheader, hpay]

/-- Settles O7: the frame taken spells the command, so it is the one the encoder writes. -/
theorem encodeOfDecodeIsTheFrame : Obligations.EncodeOfDecodeIsTheFrame := by
  unfold Obligations.EncodeOfDecodeIsTheFrame
  intro bs i rest h
  obtain ⟨f, htake, hdec⟩ := nextCommand_eq_command h
  obtain ⟨hbs, hlen⟩ := takeFrame_eq_some htake
  have hspells := spells_of_decodeFrame hlen hdec
  refine ⟨?_, i.wellFormed_iff.mpr ?_⟩
  · rw [hbs, hspells.eq_frame hlen, encode_eq_frame]
  · rw [hspells.payload, hlen]
    exact Nat.le_of_lt_succ (headerLen_lt _)

/-- Settles O9: each of the nine words is decoded by computation. -/
theorem sampleFramesDecode : Obligations.SampleFramesDecode := by
  unfold Obligations.SampleFramesDecode
  decide

end Sys2Proof

namespace Sys2Proof.Machine

/-- Settles O10: the executing branch of `step_cases`. -/
theorem stepRunsTheDecodedCommand : Obligations.StepRunsTheDecodedCommand := by
  unfold Obligations.StepRunsTheDecodedCommand
  intro s i rest h
  rw [step, h]
  rfl

/-- Settles O45: the illegal response of `exec_eq_of_indices_invalid`, for whichever command. -/
theorem indexAboveRangeIsIllegal : Obligations.IndexAboveRangeIsIllegal := by
  unfold Obligations.IndexAboveRangeIsIllegal
  exact fun i s h => exec_eq_of_indices_invalid h

/-! ### Response frames (R77, R80) -/

/-- The header word R, field by field. -/
theorem Response.header_fields (r : Response) :
    r.header.extractLsb' 0 8 = r.status.code ∧ r.header.extractLsb' 8 8 = r.ropc ∧
    r.header.extractLsb' 16 16 = BitVec.ofNat 16 r.payload.length := by
  unfold Response.header
  refine ⟨?_, ?_, ?_⟩
  · rw [extract_append_low _ _ _ _ (by omega), BitVec.extractLsb'_eq_self]
  · rw [extract_append_high _ _ _ _ (by omega), extract_append_low _ _ _ _ (by omega), BitVec.extractLsb'_eq_self]
  · rw [extract_append_high _ _ _ _ (by omega), extract_append_high _ _ _ _ (by omega), BitVec.extractLsb'_eq_self]

/-- Settles O13: the four header bytes give R back, and RLEN cuts the rest behind the payload. -/
theorem responseFramesParse : Obligations.ResponseFramesParse := by
  unfold Obligations.ResponseFramesParse
  intro r rest hlen
  obtain ⟨hstatus, hropc, hrlen⟩ := r.header_fields
  have hrlen' : (r.header.extractLsb' 16 16).toNat = r.payload.length := by
    rw [hrlen, BitVec.toNat_ofNat, Nat.mod_eq_of_lt (by omega)]
  have htake : (r.encode ++ rest).take 4 = le 4 r.header := by
    rw [Response.encode, List.append_assoc, List.take_left' (length_le 4 _)]
  have hdrop : (r.encode ++ rest).drop 4 = r.payload ++ rest := by
    rw [Response.encode, List.append_assoc, List.drop_left' (length_le 4 _)]
  have hheader : ¬ (r.encode ++ rest).length < 4 := by simp [Response.encode]
  rw [parseResponse, if_neg hheader, htake, hdrop, unle_le (by omega)]
  simp only [hrlen', hstatus, hropc]
  rw [if_neg (by simp), List.take_left, List.drop_left]

/-! ### The assembler's operands (R82) -/

theorem asmIndex_eq_none_iff (c : Nat) : asmIndex c = none ↔ 15 < c := by
  simp [asmIndex]

theorem asmData_eq_none_iff (data : List Byte) : asmData data = none ↔ 65535 < data.length := by
  simp [asmData]

theorem length_of_asmData {data b : List Byte} (h : asmData data = some b) : b.length ≤ 65535 := by
  unfold asmData at h
  split at h
  next hlen =>
    cases h
    exact hlen
  next => cases h

theorem bind_map_eq_none_iff {α β γ : Type} (x : Option α) (y : Option β) (g : α → β → γ) :
    (x.bind fun a => y.map (g a)) = none ↔ x = none ∨ y = none := by
  cases x <;> cases y <;> simp

/-- A line with an index and data assembles to a command that carries those data. -/
theorem wellFormed_of_index_data {x : Option CtxIndex} {data : List Byte} {mk : CtxIndex → List Byte → Instr}
    (hmk : ∀ c b, (mk c b).payload = b) {i : Instr} (h : (x.bind fun c => (asmData data).map (mk c)) = some i) :
    i.wellFormed = true := by
  obtain ⟨c, -, h⟩ := Option.bind_eq_some_iff.mp h
  obtain ⟨b, hb, rfl⟩ := Option.map_eq_some_iff.mp h
  rw [Instr.wellFormed_iff, hmk]
  exact length_of_asmData hb

theorem wellFormed_of_payload_nil {i : Instr} (h : i.payload = []) : i.wellFormed = true := by
  simp [Instr.wellFormed_iff, h]

/-- A line with an index and no data. -/
theorem wellFormed_of_index {x : Option CtxIndex} {mk : CtxIndex → Instr} (hmk : ∀ c, (mk c).payload = []) {i : Instr}
    (h : x.map mk = some i) : i.wellFormed = true := by
  obtain ⟨c, -, rfl⟩ := Option.map_eq_some_iff.mp h
  exact wellFormed_of_payload_nil (hmk c)

theorem AsmLine.wellFormed_of_assemble {l : AsmLine} {i : Instr} (h : l.assemble = some i) : i.wellFormed = true := by
  cases l with
  | init c data => exact wellFormed_of_index_data (mk := .init) (fun _ _ => rfl) h
  | absorb c data => exact wellFormed_of_index_data (mk := .absorb) (fun _ _ => rfl) h
  | finalize c => exact wellFormed_of_index (mk := .finalize) (fun _ => rfl) h
  | exportState c => exact wellFormed_of_index (mk := .exportState) (fun _ => rfl) h
  | importState c data => exact wellFormed_of_index_data (mk := .importState) (fun _ _ => rfl) h
  | copy d s =>
    obtain ⟨j, -, h⟩ := Option.bind_eq_some_iff.mp h
    exact wellFormed_of_index (mk := .copy j) (fun _ => rfl) h
  | reset c => exact wellFormed_of_index_data (mk := .init) (fun _ _ => rfl) h
  | nop c => exact wellFormed_of_index_data (mk := .absorb) (fun _ _ => rfl) h
  | update c data => exact wellFormed_of_index_data (mk := .absorb) (fun _ _ => rfl) h

/-- Settles O59: a line is refused where `asmIndex` or `asmData` refuses an operand. -/
theorem assemblerRefusesExactlyMisfits : Obligations.AssemblerRefusesExactlyMisfits := by
  unfold Obligations.AssemblerRefusesExactlyMisfits
  have index_data (c : Nat) (data : List Byte) (mk : CtxIndex → List Byte → Instr) :
      ((asmIndex c).bind fun i => (asmData data).map (mk i)) = none ↔ 15 < c ∨ 65535 < data.length := by
    rw [bind_map_eq_none_iff, asmIndex_eq_none_iff, asmData_eq_none_iff]
  have index (c : Nat) (mk : CtxIndex → Instr) : (asmIndex c).map mk = none ↔ 15 < c := by
    rw [Option.map_eq_none_iff, asmIndex_eq_none_iff]
  refine ⟨fun c data => ⟨index_data c data .init, index_data c data .absorb, index_data c data .importState,
    index c .finalize, index c .exportState⟩, fun d s => ?_, fun l i h => AsmLine.wellFormed_of_assemble h⟩
  rw [← asmIndex_eq_none_iff d, ← asmIndex_eq_none_iff s]
  exact bind_map_eq_none_iff _ _ Instr.copy

end Sys2Proof.Machine

/-! Proofs about absorbing: INIT with data, inputs in pieces, the byte-serial form, and the digest of a whole message
(40_construct_absorb.md, 41_finalize.md). -/

namespace Sys2Proof.Machine

/-! ### Absorbing in pieces (R81, R100, R104, R107) -/

/-- Settles O20: `absorb_absorb`. -/
theorem absorbConcatenation : Obligations.AbsorbConcatenation := by
  unfold Obligations.AbsorbConcatenation
  exact absorb_absorb

theorem execAll_cons {i : Instr} {s t : State} (h : exec i s = .next t) (more : List Instr) :
    execAll (i :: more) s = execAll more t := by
  rw [execAll, h]

/-- Settles O21: by induction on the pieces, one ABSORB and `absorb_absorb` per piece. -/
theorem longInputSplitsIntoAbsorbs : Obligations.LongInputSplitsIntoAbsorbs := by
  unfold Obligations.LongInputSplitsIntoAbsorbs
  intro s c S pieces hS hlen
  induction pieces generalizing s S with
  | nil => rw [List.flatten_nil, absorb_nil hlen]; exact hS
  | cons piece pieces ih =>
    have hc : c.toNat < s.contexts := (s.ctx_isSome_iff c).mp ⟨S, hS⟩
    rw [List.map_cons, execAll_cons (exec_absorb_of_ctx piece hS), List.flatten_cons, ← absorb_absorb]
    exact ih _ _ (s.setCtx_ctx_self c _ hc) (absorb_bufferLength_le S piece)

/-- Settles O16: absorbing into the fresh slot that INIT wrote overwrites it with what INIT with the data writes. -/
theorem initWithDataIsInitThenAbsorb : Obligations.InitWithDataIsInitThenAbsorb := by
  unfold Obligations.InitWithDataIsInitThenAbsorb
  intro s c data hc
  refine ⟨_, _, _, exec_init_of_lt [] hc, exec_absorb_of_ctx data (s.setCtx_ctx_self c _ hc),
    exec_init_of_lt data hc, ?_⟩
  rw [absorb_nil (by decide), List.set_set]

theorem absorb_of_short {S : HashState} {bytes : List Byte} (h : S.bufferLength + bytes.length < 64) :
    absorb S bytes =
      { S with totalLength := S.totalLength + BitVec.ofNat 64 bytes.length, buffer := S.buffer ++ bytes } :=
  absorb_eq_of_blocks (blocks := []) nofun (by rwa [List.length_append]) rfl

/-- Settles O24: fewer than 64 bytes are no block and a rest. -/
theorem accumulatorWaitsForABlock : Obligations.AccumulatorWaitsForABlock := by
  unfold Obligations.AccumulatorWaitsForABlock
  intro S bytes h
  rw [absorb_of_short h]
  exact ⟨rfl, rfl⟩

/-! ### The byte-serial form (R108) -/

theorem HashState.bufWrite_end (S : HashState) (x : Byte) :
    S.bufWrite S.bufferLength [x] = { S with buffer := S.buffer ++ [x] } := by
  simp [HashState.bufWrite, HashState.bufferLength, List.drop_eq_nil_of_le]

theorem absorbByte_eq (S : HashState) (x : Byte) :
    absorbByte S x =
      if S.bufferLength + 1 = 64 then
        { acc := compress S.acc (slice (S.buffer ++ [x]) 0 64), totalLength := S.totalLength + 1#64, buffer := [] }
      else { S with totalLength := S.totalLength + 1#64, buffer := S.buffer ++ [x] } := by
  simp only [absorbByte, HashState.bufWrite_end, HashState.bufRead]
  simp [HashState.bufferLength]

/-- One byte fills the block, or only joins the buffer. -/
theorem absorbByte_eq_absorb {S : HashState} (x : Byte) (hS : S.bufferLength ≤ 63) :
    absorbByte S x = absorb S [x] := by
  rw [absorbByte_eq]
  split_ifs with hfull
  · have hlen : (S.buffer ++ [x]).length = 64 := by
      rw [List.length_append, List.length_singleton]
      exact hfull
    have hblocks : AllBlocks [S.buffer ++ [x]] := List.forall_mem_singleton.mpr hlen
    have habsorb := absorb_eq_of_blocks (S := S) (bytes := [x]) (rest := []) hblocks (by decide) (by simp)
    rw [slice_zero_length _ 64 hlen.symm, habsorb]
    rfl
  · exact (absorb_of_short (bytes := [x]) (by rw [List.length_singleton]; omega)).symm

/-- Settles O25: by induction on the bytes, each of which is absorbed alone. -/
theorem byteSerialFormAgrees : Obligations.ByteSerialFormAgrees := by
  unfold Obligations.ByteSerialFormAgrees
  intro S bytes hS
  induction bytes generalizing S with
  | nil => rw [List.foldl_nil, absorb_nil hS]
  | cons x bytes ih =>
    rw [List.foldl_cons, absorbByte_eq_absorb x hS, ih _ (absorb_bufferLength_le S [x]), absorb_absorb,
      List.singleton_append]

/-! ### The digest of a message (R124, R127) -/

/-- Settles O28: the length of the tail is that of the buffer, 0x80, the zeros and the bit count. -/
theorem paddedTailIsOneOrTwoBlocks : Obligations.PaddedTailIsOneOrTwoBlocks := by
  unfold Obligations.PaddedTailIsOneOrTwoBlocks
  intro S
  rw [length_paddedTail, padZeros]
  omega

/-- Chaining over blocks looks only at the bytes they make together. -/
theorem foldl_compress_eq_of_flatten_eq {blocks blocks' : List (List Byte)} (h : AllBlocks blocks)
    (h' : AllBlocks blocks') (hflat : blocks.flatten = blocks'.flatten) (acc : Accumulator) :
    blocks.foldl compress acc = blocks'.foldl compress acc := by
  have hcount : blocks.length = blocks'.length := by
    have hlen := congrArg List.length hflat
    rw [h.length_flatten, h'.length_flatten] at hlen
    omega
  have hsame := compressBlocks_flatten h acc []
  rw [hflat, hcount, compressBlocks_flatten h' acc []] at hsame
  exact (congrArg Prod.fst hsame).symm

/-- Bytes whose number is a multiple of 64 are blocks. -/
theorem exists_blocks_of_mod_eq_zero {w : List Byte} (h : w.length % 64 = 0) :
    ∃ blocks, AllBlocks blocks ∧ w = blocks.flatten := by
  obtain ⟨blocks, rest, hblocks, hrest, hw⟩ := exists_blocks w
  have hlen : w.length = 64 * blocks.length + rest.length := by rw [hw, List.length_append, hblocks.length_flatten]
  obtain rfl : rest = [] := List.length_eq_zero_iff.mp (by omega)
  exact ⟨blocks, hblocks, by rw [hw, List.append_nil]⟩

/-- The message's blocks, then the tail that `finalize` makes of the rest: the message padded in one piece. -/
theorem paddedMessage_eq_of_blocks {m rest : List Byte} {blocks : List (List Byte)} (hblocks : AllBlocks blocks)
    (hrest : rest.length < 64) (hm : m = blocks.flatten ++ rest) :
    paddedMessage m =
      blocks.flatten ++ ((absorb HashState.fresh m).buffer ++ pad (absorb HashState.fresh m)) := by
  have hlen : m.length = 64 * blocks.length + rest.length := by rw [hm, List.length_append, hblocks.length_flatten]
  have habsorb := absorb_eq_of_blocks (S := HashState.fresh) hblocks hrest hm
  have hbuf : (absorb HashState.fresh m).buffer = rest := by rw [habsorb]
  have hzeros : padZeros (absorb HashState.fresh m) = (119 - m.length % 64) % 64 := by
    rw [padZeros, HashState.bufferLength, hbuf]
    omega
  have hcount : (absorb HashState.fresh m).totalLength * 8#64 = BitVec.ofNat 64 (8 * m.length) := by
    rw [absorb_totalLength, fresh_totalLength, BitVec.zero_add, ← BitVec.ofNat_mul, Nat.mul_comm]
  rw [paddedMessage, pad, hzeros, hcount, hbuf, ← List.append_assoc, ← hm]
  simp only [List.append_assoc]

theorem length_paddedMessage (m : List Byte) : (paddedMessage m).length % 64 = 0 := by
  simp only [paddedMessage, List.length_append, List.length_singleton, List.length_replicate, length_le]
  omega

/-- Settles O31: the blocks of the message and the one or two of its tail are blocks of the padded message. -/
theorem digestIsTheMd5OfTheMessage : Obligations.DigestIsTheMd5OfTheMessage := by
  unfold Obligations.DigestIsTheMd5OfTheMessage
  refine fun m => ⟨length_paddedMessage m, fun blocks hblocks hflat => ?_⟩
  obtain ⟨front, rest, hfront, hrest, hm⟩ := exists_blocks m
  have hpadded := paddedMessage_eq_of_blocks hfront hrest hm
  set T := absorb HashState.fresh m with hT
  obtain ⟨back, hback, htail⟩ : ∃ back, AllBlocks back ∧ T.buffer ++ pad T = back.flatten := by
    refine exists_blocks_of_mod_eq_zero ?_
    have hlen := length_paddedMessage m
    rw [hpadded, List.length_append, hfront.length_flatten] at hlen
    omega
  have hacc : T.acc = front.foldl compress Accumulator.initial := by
    rw [hT, absorb_eq_of_blocks (S := HashState.fresh) hfront hrest hm, fresh_acc]
  obtain ⟨hdigest, -⟩ := finalizeChainsThePaddedTail T back (absorb_bufferLength_le _ m) hback htail
  rw [hdigest, hacc, ← List.foldl_append]
  have hboth : AllBlocks (front ++ back) := List.forall_mem_append.mpr ⟨hfront, hback⟩
  refine congrArg digestBytes (foldl_compress_eq_of_flatten_eq hboth hblocks ?_ _)
  rw [List.flatten_append, ← htail, ← hpadded, hflat]

end Sys2Proof.Machine

/-! Proofs about snapshots: EXPORT and IMPORT undo each other, a checkpoint resumes, and COPY is EXPORT followed by
IMPORT (42_export_import_copy.md). -/

namespace Sys2Proof.Machine

theorem deserialise_serialise {S : HashState} (hS : S.bufferLength ≤ 63) : deserialise (serialise S) = S := by
  rw [serialise_eq]
  exact deserialise_layout hS List.length_replicate

theorem toNat_length_byte {S : HashState} (hS : S.bufferLength ≤ 63) :
    (BitVec.ofNat 8 S.bufferLength).toNat = S.bufferLength := by
  rw [BitVec.toNat_ofNat, Nat.mod_eq_of_lt (by omega)]

/-- Settles O36: the blob is the layout of the state, with filler 0x00. -/
theorem importAfterExportIsIdentity : Obligations.ImportAfterExportIsIdentity := by
  unfold Obligations.ImportAfterExportIsIdentity
  intro S hS
  exact ⟨deserialise_serialise hS, length_serialise hS, _, serialise_length_byte hS, by rwa [toNat_length_byte hS]⟩

/-! ### Export after import (R136) -/

/-- Neighbouring slices join. -/
theorem slice_append_slice_next (s : List Byte) {i j k : Nat} (hij : i ≤ j) (hjk : j ≤ k) :
    slice s i j ++ slice s j k = slice s i k := by
  have hk : k - i = (j - i) + (k - j) := by omega
  have hj : i + (j - i) = j := by omega
  rw [slice, slice, slice, hk, List.take_add, List.drop_drop, hj]

/-- The fields of fixed width, decoded and encoded again, are the first 24 bytes. -/
theorem fixedFields_deserialise {blob : List Byte} (h : 24 ≤ blob.length) :
    fixedFields (deserialise blob) = slice blob 0 24 := by
  have word (i : Nat) (hi : i + 4 ≤ 24) : le 4 (unle 32 (slice blob i (i + 4))) = slice blob i (i + 4) :=
    le_unle (by rw [length_slice]; omega) (by decide)
  have count : le 8 (unle 64 (slice blob 16 24)) = slice blob 16 24 :=
    le_unle (by rw [length_slice]; omega) (by decide)
  simp only [fixedFields, deserialise]
  rw [word 0 (by decide), word 4 (by decide), word 8 (by decide), word 12 (by decide), count,
    slice_append_slice_next _ (by decide) (by decide), slice_append_slice_next _ (by decide) (by decide),
    slice_append_slice_next _ (by decide) (by decide), slice_append_slice_next _ (by decide) (by decide)]

/-- Settles O37: the fixed fields and the buffer are one slice of the blob, and the length byte is the blob's. -/
theorem exportAfterImportNormalisesFiller : Obligations.ExportAfterImportNormalisesFiller := by
  unfold Obligations.ExportAfterImportNormalisesFiller
  intro blob last hsize hlast hle
  have hn : blobBufferLength blob = last.toNat := blobBufferLength_eq hlast
  have hlen : (deserialise blob).bufferLength = last.toNat := (deserialise_bufferLength hsize (by omega)).trans hn
  have hbuf : (deserialise blob).buffer = slice blob 24 (24 + last.toNat) := by rw [deserialise, hn]
  rw [serialise_eq, fixedFields_deserialise (by omega), hbuf, hlen,
    slice_append_slice_next blob (by omega) (by omega), BitVec.ofNat_toNat, BitVec.setWidth_eq]

/-! ### Blobs that IMPORT accepts (R135, R137, R138) -/

/-- IMPORT of an exported blob installs the exported state. -/
theorem exec_importState_serialise {s : State} {c : CtxIndex} {S : HashState} (hc : c.toNat < s.contexts)
    (hS : S.bufferLength ≤ 63) :
    exec (.importState c (serialise S)) s = .next { s with
      ctxs := s.ctxs.set c.toNat S
      rsp := s.rsp ++ [0x00#8, 0x05#8, 0x00#8, 0x00#8] } := by
  have hlast : blobBufferLength (serialise S) = S.bufferLength := by
    rw [blobBufferLength_eq (serialise_length_byte hS), toNat_length_byte hS]
  rw [exec_importState_of_lt _ hc, if_neg (not_not_intro (length_serialise hS)), if_neg (by omega),
    deserialise_serialise hS, complete_setCtx]
  rfl

/-- Settles O38: the imported state is the exported one, and `absorb_absorb` joins the two inputs. -/
theorem checkpointResumesExactly : Obligations.CheckpointResumesExactly := by
  unfold Obligations.CheckpointResumesExactly
  intro x y u c hc
  have hx := absorb_bufferLength_le HashState.fresh x
  refine ⟨by rw [deserialise_serialise hx, absorb_absorb], _, _, exec_importState_serialise hc hx,
    exec_absorb_of_ctx y (u.setCtx_ctx_self c _ hc), ?_⟩
  rw [← absorb_absorb]
  refine State.setCtx_ctx_self (u.setCtx c (absorb HashState.fresh x)) c _ ?_
  rwa [State.setCtx_contexts]

/-- Settles O40: the payload of EXPORT's answer is the blob, and IMPORT of it writes the source's value. -/
theorem copyEqualsExportThenImport : Obligations.CopyEqualsExportThenImport := by
  unfold Obligations.CopyEqualsExportThenImport
  intro s d src S hd hS hlen
  let u : State := { s with rsp := s.rsp ++ [0x00#8, 0x04#8, 0x59#8, 0x00#8] ++ serialise S }
  have hpayload : u.rsp.drop (s.rsp.length + 4) = serialise S := List.drop_left' (by simp)
  have himport := exec_importState_serialise (s := u) hd hlen
  rw [← hpayload] at himport
  exact ⟨_, u, _, exec_copy_of_ctx hd hS, exec_exportState_of_ctx hS hlen, himport, rfl⟩

end Sys2Proof.Machine

/-! Proofs about the compression function: its operations bit by bit, the message words, and the loop of R162
(20_memory.md R52, 43_compress_core.md). -/

namespace Sys2Proof.Machine

/-! ### The round functions and the rotation (R152 to R156) -/

/-- Settles O49: each formula at one bit is a truth table in the bits of x, y and z. -/
theorem roundFunctionsBitByBit : Obligations.RoundFunctionsBitByBit := by
  unfold Obligations.RoundFunctionsBitByBit
  intro x y z i hi
  simp only [fnF, fnG, fnH, fnI, BitVec.getLsbD_or, BitVec.getLsbD_and, BitVec.getLsbD_xor, BitVec.getLsbD_not, hi,
    decide_true, Bool.true_and]
  cases x.getLsbD i <;> cases y.getLsbD i <;> cases z.getLsbD i <;> decide

/-- The two shifts of R156 are the library's rotation. -/
theorem rotl32_eq_rotateLeft (v : Word) {s : Nat} (hs : s < 32) : rotl32 v s = v.rotateLeft s := by
  rw [rotl32, BitVec.rotateLeft_def, Nat.mod_eq_of_lt hs]

/-- Settles O50: bit (i + s) mod 32 of the rotation is a bit of the left part up to i + s = 31, of the right part
beyond. -/
theorem rotationMovesEveryBit : Obligations.RotationMovesEveryBit := by
  unfold Obligations.RotationMovesEveryBit
  intro v s i _ hs hi
  rw [rotl32, BitVec.getLsbD_or, BitVec.getLsbD_shiftLeft, BitVec.getLsbD_ushiftRight]
  by_cases h : i + s < 32
  · have hhigh : v.getLsbD (32 - s + (i + s)) = false := BitVec.getLsbD_of_ge v _ (by omega)
    simp [Nat.mod_eq_of_lt h, h, hhigh]
  · have hmod : (i + s) % 32 = i + s - 32 := by omega
    have hback : 32 - s + (i + s - 32) = i := by omega
    have hlow : i + s - 32 < s := by omega
    simp [hmod, hback, hlow]

/-! ### Message words (R52, R151) -/

theorem slice_eq_of_getElem? {blk : List Byte} {k : Nat} {b0 b1 b2 b3 : Byte} (h0 : blk[k]? = some b0)
    (h1 : blk[k + 1]? = some b1) (h2 : blk[k + 2]? = some b2) (h3 : blk[k + 3]? = some b3) :
    slice blk k (k + 4) = [b0, b1, b2, b3] := by
  have byte (i : Nat) : (blk.drop k)[i]? = blk[k + i]? := List.getElem?_drop
  rw [slice, Nat.add_sub_cancel_left]
  refine List.ext_getElem? fun i => ?_
  match i with
  | 0 => simp [h0]
  | 1 => simp [h1]
  | 2 => simp [h2]
  | 3 => simp [h3]
  | i + 4 => simp

/-- Settles O51: the four bytes are the word's slice, and their weighted sum fits 32 bits. -/
theorem messageWordsAreLittleEndian : Obligations.MessageWordsAreLittleEndian := by
  unfold Obligations.MessageWordsAreLittleEndian
  intro blk j b0 b1 b2 b3 _ _ h0 h1 h2 h3
  have hlt : unleNat [b0, b1, b2, b3] < 2 ^ 32 := unleNat_lt [b0, b1, b2, b3]
  rw [messageWord, slice_eq_of_getElem? h0 h1 h2 h3, unle, BitVec.toNat_ofNat, Nat.mod_eq_of_lt hlt]
  simp only [unleNat]
  omega

theorem wordIndex_lt {i : Nat} (hi : i < 64) : wordIndex i < 16 := by
  unfold wordIndex
  split_ifs <;> omega

/-! ### The loop (R160 to R162) -/

theorem workingRegisters_succ (m : Nat → Word) (acc : Accumulator) (n : Nat) :
    workingRegisters m acc (n + 1) = compressStep m (workingRegisters m acc n) n := by
  simp [workingRegisters, List.range_succ]

/-- A sequence that starts with the accumulator and makes each step of the loop is the sequence of the working
registers. -/
theorem workingRegisters_eq_of_steps {m : Nat → Word} {acc : Accumulator} {r : Nat → Accumulator} (h0 : r 0 = acc)
    {n : Nat} (hstep : ∀ i, i < n → r (i + 1) = compressStep m (r i) i) : workingRegisters m acc n = r n := by
  induction n with
  | zero => exact h0.symm
  | succ n ih =>
    rw [workingRegisters_succ, ih fun i hi => hstep i (by omega), hstep n (by omega)]

/-- Settles O52: the 64 steps use only words 0 to 15. -/
theorem blockReadOnlyThroughItsWords : Obligations.BlockReadOnlyThroughItsWords := by
  unfold Obligations.BlockReadOnlyThroughItsWords
  intro acc blk blk' h
  have hloop : workingRegisters (messageWord blk) acc 64 = workingRegisters (messageWord blk') acc 64 := by
    refine workingRegisters_eq_of_steps (r := workingRegisters (messageWord blk') acc) rfl fun i hi => ?_
    rw [workingRegisters_succ, compressStep, compressStep, h _ (wordIndex_lt hi)]
  rw [compress, compress, hloop]

/-- The shift amounts are those of R158, all below 32. -/
theorem shiftAmount_eq (i : Nat) :
    shiftAmount i = if i ≤ 15 then [7, 12, 17, 22].getD (i % 4) 0
      else if i ≤ 31 then [5, 9, 14, 20].getD (i % 4) 0
      else if i ≤ 47 then [4, 11, 16, 23].getD (i % 4) 0 else [6, 10, 15, 21].getD (i % 4) 0 := by
  unfold shiftAmount
  split_ifs <;> rfl

theorem shiftAmount_lt : ∀ i, i < 64 → shiftAmount i < 32 := by decide

theorem Accumulator.eq_of_words {r r' : Accumulator} (ha : r.a = r'.a) (hb : r.b = r'.b) (hc : r.c = r'.c)
    (hd : r.d = r'.d) : r = r' := by
  obtain ⟨_, _, _, _⟩ := r
  obtain ⟨_, _, _, _⟩ := r'
  simp_all

/-- Settles O53: the word index, the shift, the round function and the rotation written out are the model's. -/
theorem compressFollowsTheLoop : Obligations.CompressFollowsTheLoop := by
  unfold Obligations.CompressFollowsTheLoop
  intro acc blk r f g fw h0 hg hf hfw hstep
  have hsteps : ∀ i, i < 64 → r (i + 1) = compressStep (messageWord blk) (r i) i := by
    intro i hi
    have hindex : g i = wordIndex i := hg i hi
    have hshift : f i = shiftAmount i := (hf i hi).trans (shiftAmount_eq i).symm
    have hround : fw i = roundFn i (r i).b (r i).c (r i).d := hfw i hi
    obtain ⟨ha, hc, hd, hb⟩ := hstep i hi
    rw [hround, hindex, hshift, ← rotl32_eq_rotateLeft _ (shiftAmount_lt i hi)] at hb
    exact Accumulator.eq_of_words ha hb hc hd
  rw [compress, workingRegisters_eq_of_steps h0 hsteps, addBack]

end Sys2Proof.Machine

/-! Proofs that a command looks at the contexts it names and at nothing else (10_state.md R31, R38; 20_memory.md
R56). -/

namespace Sys2Proof.Machine

/-! ### One command on two states -/

/-- The context whose value a command uses; INIT and IMPORT only look whether their index is valid. -/
def readContext : Instr → Option CtxIndex
  | .init _ _ => none
  | .absorb c _ => some c
  | .finalize c => some c
  | .exportState c => some c
  | .importState _ _ => none
  | .copy _ src => some src

/-- Two outcomes of one command: the same error, the same answer without a write, or the same write, each on its own
state. -/
inductive Alike (opc : Byte) (c : CtxIndex) (s₁ s₂ : State) : Result → Result → Prop where
  | error (e : Status) : Alike opc c s₁ s₂ (raise e opc s₁) (raise e opc s₂)
  | answer (payload : List Byte) : Alike opc c s₁ s₂ (complete opc payload s₁) (complete opc payload s₂)
  | write (S : HashState) :
      Alike opc c s₁ s₂ (complete opc [] (s₁.setCtx c S)) (complete opc [] (s₂.setCtx c S))

section
variable {s₁ s₂ : State} (hn : s₁.contexts = s₂.contexts) {opc : Byte} {c d : CtxIndex} {k₁ k₂ : HashState → Result}
include hn

theorem onContext_alike (hk : ∀ S₁ S₂, s₁.ctx d = some S₁ → s₂.ctx d = some S₂ → Alike opc c s₁ s₂ (k₁ S₁) (k₂ S₂)) :
    Alike opc c s₁ s₂ (onContext opc d s₁ k₁) (onContext opc d s₂ k₂) := by
  by_cases hd : d.toNat < s₁.contexts
  · obtain ⟨S₁, h₁⟩ := (s₁.ctx_isSome_iff d).mpr hd
    obtain ⟨S₂, h₂⟩ := (s₂.ctx_isSome_iff d).mpr (hn ▸ hd)
    rw [onContext_of_some _ _ _ _ S₁ h₁, onContext_of_some _ _ _ _ S₂ h₂]
    exact hk S₁ S₂ h₁ h₂
  · rw [onContext_of_none _ _ _ _ ((s₁.ctx_eq_none_iff d).mpr (not_lt.mp hd)),
      onContext_of_none _ _ _ _ ((s₂.ctx_eq_none_iff d).mpr (hn ▸ not_lt.mp hd))]
    exact .error _

/-- The value of the slot may be used where both states hold the same. -/
theorem onContext_alike_of_eq (hd : s₁.ctx d = s₂.ctx d) (hk : ∀ S, Alike opc c s₁ s₂ (k₁ S) (k₂ S)) :
    Alike opc c s₁ s₂ (onContext opc d s₁ k₁) (onContext opc d s₂ k₂) := by
  refine onContext_alike hn fun S₁ S₂ h₁ h₂ => ?_
  obtain rfl : S₁ = S₂ := Option.some.inj (h₁.symm.trans (hd.trans h₂))
  exact hk S₁

/-- On states that agree on the context whose value it uses, a command does the same. -/
theorem exec_alike {i : Instr} (hread : ∀ c, readContext i = some c → s₁.ctx c = s₂.ctx c) :
    Alike i.opcode i.ctx s₁ s₂ (exec i s₁) (exec i s₂) := by
  cases i with
  | init c data => exact onContext_alike hn fun _ _ _ _ => .write _
  | absorb c data => exact onContext_alike_of_eq hn (hread c rfl) fun _ => .write _
  | finalize c => exact onContext_alike_of_eq hn (hread c rfl) fun _ => .answer _
  | exportState c => exact onContext_alike_of_eq hn (hread c rfl) fun _ => .answer _
  | importState c blob =>
    refine onContext_alike hn fun _ _ _ _ => ?_
    split_ifs
    · exact .error _
    · exact .error _
    · exact .write _
  | copy d src =>
    exact onContext_alike hn fun _ _ _ _ => onContext_alike_of_eq hn (hread src rfl) fun _ => .write _

end

/-- What two outcomes that are alike give: one response appended to both streams, and one change of the contexts. -/
theorem Alike.next {opc : Byte} {c : CtxIndex} {s₁ s₂ : State} {o₁ o₂ : Result} (h : Alike opc c s₁ s₂ o₁ o₂) :
    ∃ (t₁ t₂ : State) (r : Response), o₁ = .next t₁ ∧ o₂ = .next t₂ ∧
      t₁.rsp = s₁.rsp ++ r.encode ∧ t₂.rsp = s₂.rsp ++ r.encode ∧
      ((t₁.ctxs = s₁.ctxs ∧ t₂.ctxs = s₂.ctxs) ∨
       ∃ S, t₁.ctxs = s₁.ctxs.set c.toNat S ∧ t₂.ctxs = s₂.ctxs.set c.toNat S) := by
  cases h with
  | error e => exact ⟨_, _, _, raise_eq _ _ _, raise_eq _ _ _, rfl, rfl, .inl ⟨rfl, rfl⟩⟩
  | answer payload => exact ⟨_, _, _, complete_eq _ _ _, complete_eq _ _ _, rfl, rfl, .inl ⟨rfl, rfl⟩⟩
  | write S => exact ⟨_, _, _, complete_eq _ _ _, complete_eq _ _ _, rfl, rfl, .inr ⟨S, rfl, rfl⟩⟩

/-- A command uses the value of its CTX context or of its SRC context. -/
theorem readContext_eq_some {i : Instr} {c : CtxIndex} (h : readContext i = some c) :
    c = i.ctx ∨ ∃ d, i = .copy d c := by
  cases i <;> simp_all [readContext, Instr.ctx]

/-- Settles O47: what is appended is the same, and so is what is written, or nothing is. -/
theorem resultsDependOnNamedContextsOnly : Obligations.ResultsDependOnNamedContextsOnly := by
  unfold Obligations.ResultsDependOnNamedContextsOnly
  intro i s1 s2 t1 t2 hn hctx hsrc h1 h2
  have hread (c : CtxIndex) (hc : readContext i = some c) : s1.ctx c = s2.ctx c := by
    obtain rfl | ⟨d, hi⟩ := readContext_eq_some hc
    · exact hctx
    · exact hsrc d c hi
  obtain ⟨u1, u2, r, hu1, hu2, hrsp1, hrsp2, hctxs⟩ := (exec_alike hn hread).next
  obtain rfl := Host.Outcome.next.inj (h1.symm.trans hu1)
  obtain rfl := Host.Outcome.next.inj (h2.symm.trans hu2)
  refine ⟨?_, _, hrsp1, hrsp2⟩
  obtain ⟨hc1, hc2⟩ | ⟨S, hc1, hc2⟩ := hctxs
  · rw [State.ctx, State.ctx, hc1, hc2]
    exact hctx
  · rw [State.ctx, State.ctx, hc1, hc2, List.getElem?_set_self', List.getElem?_set_self']
    exact congrArg (Option.map _) hctx

/-! ### Repeating a command (R56) -/

/-- COPY leaves the source's value as it was, also where it is the destination. -/
theorem exec_copy_keeps_source {d src : CtxIndex} {s t : State} (h : exec (.copy d src) s = .next t) :
    t.ctx src = s.ctx src := by
  obtain ⟨-, he⟩ | ⟨T, S, hd, hS, he⟩ := execCopy_cases d src s
  · obtain rfl := Host.Outcome.next.inj (h.symm.trans (he.trans (raise_eq _ _ _)))
    rfl
  · obtain rfl := Host.Outcome.next.inj (h.symm.trans (he.trans (complete_eq _ _ _)))
    rw [State.emit_ctx]
    by_cases hsame : src = d
    · subst hsame
      rw [s.setCtx_ctx_self src S ((s.ctx_isSome_iff src).mp ⟨T, hd⟩), hS]
    · exact s.setCtx_ctx_of_ne d src S hsame

/-- Only ABSORB changes the value it has used. -/
theorem exec_keeps_read {i : Instr} {s t : State} (habsorb : ∀ c data, i ≠ .absorb c data) (h : exec i s = .next t)
    (c : CtxIndex) (hc : readContext i = some c) : t.ctx c = s.ctx c := by
  cases i with
  | init _ _ => cases hc
  | absorb d data => exact absurd rfl (habsorb d data)
  | finalize d => exact (exec_keeps_unwritten h).2 c nofun
  | exportState d => exact (exec_keeps_unwritten h).2 c nofun
  | importState _ _ => cases hc
  | copy d src =>
    obtain rfl := Option.some.inj hc
    exact exec_copy_keeps_source h

/-- The counter tells a context that has absorbed 1 to 65535 bytes from the one before. -/
theorem absorb_ne_self (S : HashState) {data : List Byte} (hpos : 0 < data.length) (hlen : data.length ≤ 65535) :
    absorb S data ≠ S := by
  intro h
  have htotal := congrArg (fun T => T.totalLength.toNat) h
  simp only [toNat_absorb_totalLength] at htotal
  have := S.totalLength.isLt
  omega

/-- Settles O46: the second time the command finds the value that it uses unchanged, and so writes what stands there
already. -/
theorem commandsAreIdempotentButAbsorb : Obligations.CommandsAreIdempotentButAbsorb := by
  unfold Obligations.CommandsAreIdempotentButAbsorb
  refine ⟨fun i s t habsorb h => ?_, fun s t c data hc hpos hlen h => ?_⟩
  · have hn : s.contexts = t.contexts := (exec_keeps_unwritten h).1.symm
    obtain ⟨t', u, r, ht, hu, hrspt, hrspu, hctxs⟩ :=
      (exec_alike hn fun c hc => (exec_keeps_read habsorb h c hc).symm).next
    obtain rfl := Host.Outcome.next.inj (h.symm.trans ht)
    refine ⟨u, _, hu, ?_, hrspt, hrspu⟩
    obtain ⟨-, hcu⟩ | ⟨S, hct, hcu⟩ := hctxs
    · exact hcu
    · rw [hcu, hct, List.set_set]
  · obtain ⟨S, hS⟩ := (s.ctx_isSome_iff c).mpr hc
    obtain rfl := Host.Outcome.next.inj (h.symm.trans (exec_absorb_of_ctx data hS))
    rw [hS]
    refine fun heq => absorb_ne_self S hpos hlen (Option.some.inj ?_)
    exact (s.setCtx_ctx_self c _ hc).symm.trans heq

end Sys2Proof.Machine

/-! Proofs about executing until the engine waits: what `settle` comes to, one response per frame, and that neither the
bytes behind a frame nor the responses already taken are looked at (20_memory.md R59, 30_encoding.md R70). -/

namespace Sys2Proof.Machine

/-! ### `settle` (R217) -/

theorem State.cmd_length_of_frame {s : State} {f : Frame} {rest : List Byte} (h : takeFrame s.cmd = some (f, rest)) :
    s.cmd.length = 4 + headerLen f.header + rest.length := by
  obtain ⟨hcmd, hlen⟩ := takeFrame_eq_some h
  rw [hcmd, List.length_append, List.length_append, length_le, hlen]

theorem State.advances_of_waiting {s : State} (h : s.waiting = true) (n : Nat) : s.advances n = s := by
  induction n with
  | zero => rfl
  | succ n ih => rw [State.advances, State.advance_of_waiting h, ih]

/-- As many advances as there are bytes leave no whole frame. -/
theorem State.waiting_advances {s : State} {n : Nat} (h : s.cmd.length ≤ n) : (s.advances n).waiting = true := by
  induction n generalizing s with
  | zero =>
    obtain ⟨hwait, -⟩ | ⟨f, rest, htake, -⟩ := s.advance_cases
    · exact hwait
    · have := State.cmd_length_of_frame htake
      omega
  | succ n ih =>
    obtain ⟨hwait, -⟩ | ⟨f, rest, htake, -⟩ := s.advance_cases
    · rwa [State.advances_of_waiting hwait]
    · obtain ⟨-, hrest, -⟩ := State.advance_of_frame htake
      have hlen := State.cmd_length_of_frame htake
      exact ih (by rw [hrest]; omega)

theorem State.advances_add (s : State) (m n : Nat) : s.advances (m + n) = (s.advances m).advances n := by
  induction m generalizing s with
  | zero => rw [Nat.zero_add]; rfl
  | succ m ih => rw [Nat.succ_add, State.advances, ih, State.advances]

/-- More advances than there are bytes change nothing further. -/
theorem State.advances_eq_settle {s : State} {n : Nat} (h : s.cmd.length ≤ n) : s.advances n = s.settle := by
  obtain ⟨k, rfl⟩ := Nat.exists_eq_add_of_le h
  rw [State.advances_add, State.advances_of_waiting (State.waiting_advances le_rfl), State.settle]

theorem State.settle_of_waiting {s : State} (h : s.waiting = true) : s.settle = s :=
  State.advances_of_waiting h _

/-- Executing one frame first changes nothing of the end. -/
theorem State.settle_advance (s : State) : s.advance.settle = s.settle := by
  obtain ⟨-, hadv⟩ | ⟨f, rest, htake, -⟩ := s.advance_cases
  · rw [hadv]
  · obtain ⟨-, hrest, -⟩ := State.advance_of_frame htake
    have hlen := State.cmd_length_of_frame htake
    rw [← State.advances_eq_settle (s := s.advance) (n := s.cmd.length) (by rw [hrest]; omega),
      ← State.advances_eq_settle (s := s) (Nat.le_succ _)]
    rfl

/-! ### One response per frame (R70) -/

/-- Settles O48: by induction on the frames, each taken by one advance. -/
theorem oneResponsePerFrameInOrder : Obligations.OneResponsePerFrameInOrder := by
  unfold Obligations.OneResponsePerFrameInOrder
  intro s frames tail hframes htail hcmd
  induction frames generalizing s with
  | nil =>
    have hwait : s.waiting = true := s.waiting_eq_true_iff.mpr (hcmd ▸ htail)
    rw [State.settle_of_waiting hwait]
    exact ⟨hcmd, [], by simp, rfl⟩
  | cons frame frames ih =>
    obtain ⟨h, payload⟩ := frame
    obtain ⟨hlen, hmore⟩ := List.forall_mem_cons.mp hframes
    have htake : takeFrame s.cmd = some (⟨h, payload⟩, (frames.map fun f => le 4 f.1 ++ f.2).flatten ++ tail) := by
      rw [hcmd, List.map_cons, List.flatten_cons, List.append_assoc]
      exact takeFrame_whole h payload _ (hlen.trans (headerLen_eq h).symm)
    obtain ⟨-, hrest, -, r, hrsp, hecho⟩ := State.advance_of_frame htake
    obtain ⟨hdone, responses, hresponses, hechoes⟩ := ih s.advance hmore hrest
    rw [State.settle_advance] at hdone hresponses
    refine ⟨hdone, r :: responses, ?_, ?_⟩
    · rw [hresponses, hrsp, List.map_cons, List.flatten_cons, List.append_assoc]
    · rw [List.map_cons, List.map_cons, hechoes, hecho, toNat_headerOpc]

/-! ### Two states apart only in bytes taken and bytes to come -/

/-- `t` is `s` with the response bytes `taken` still there and the command bytes `more` already there. -/
structure Ahead (taken more : List Byte) (s t : State) : Prop where
  ctxs : t.ctxs = s.ctxs
  rsp : t.rsp = taken ++ s.rsp
  cmd : t.cmd = s.cmd ++ more

theorem takeFrame_append {bs rest : List Byte} {f : Frame} (h : takeFrame bs = some (f, rest)) (more : List Byte) :
    takeFrame (bs ++ more) = some (f, rest ++ more) := by
  obtain ⟨hbs, hlen⟩ := takeFrame_eq_some h
  rw [hbs, List.append_assoc, takeFrame_whole _ _ _ hlen]

/-- On the same contexts the same frame is answered alike, whatever the streams hold besides. -/
theorem step_alike_of_frame {s t : State} {f : Frame} {rs rt : List Byte} (hctxs : t.ctxs = s.ctxs)
    (hs : takeFrame s.cmd = some (f, rs)) (ht : takeFrame t.cmd = some (f, rt)) :
    ∃ opc c, Alike opc c (s.withCmd rs) (t.withCmd rt) (step s) (step t) := by
  obtain ⟨hcmds, hlen⟩ := takeFrame_eq_some hs
  obtain ⟨hcmdt, -⟩ := takeFrame_eq_some ht
  obtain ⟨hoks, herrors⟩ := step_of_frame hcmds hlen
  obtain ⟨hokt, herrort⟩ := step_of_frame hcmdt hlen
  cases hdec : decodeFrame f with
  | error why =>
    rw [herrors why hdec, herrort why hdec]
    exact ⟨_, 0, .error _⟩
  | ok i =>
    rw [hoks i hdec, hokt i hdec]
    have hctx (c : CtxIndex) : s.ctx c = t.ctx c := by rw [State.ctx, State.ctx, hctxs]
    exact ⟨_, _, exec_alike (s₁ := s.withCmd rs) (s₂ := t.withCmd rt) (congrArg List.length hctxs.symm)
      fun c _ => hctx c⟩

/-- Both take the same frame and answer and write the same. -/
theorem Ahead.advance {taken more : List Byte} {s t : State} (h : Ahead taken more s t) (hs : s.waiting = false) :
    Ahead taken more s.advance t.advance := by
  obtain ⟨hwait, -⟩ | ⟨f, rest, htake, -⟩ := s.advance_cases
  · rw [hwait] at hs
    cases hs
  have htake' : takeFrame t.cmd = some (f, rest ++ more) := h.cmd ▸ takeFrame_append htake more
  obtain ⟨opc, c, halike⟩ := step_alike_of_frame h.ctxs htake htake'
  obtain ⟨s', t', r, hs', ht', hrsps, hrspt, hctxs⟩ := halike.next
  obtain ⟨-, hrests, -⟩ := State.advance_of_frame htake
  obtain ⟨-, hrestt, -⟩ := State.advance_of_frame htake'
  rw [State.advance_of_step hs'] at hrests ⊢
  rw [State.advance_of_step ht'] at hrestt ⊢
  refine ⟨?_, ?_, by rw [hrestt, hrests]⟩
  · obtain ⟨hcs, hct⟩ | ⟨S, hcs, hct⟩ := hctxs
    · rw [hcs, hct]
      exact h.ctxs
    · rw [hcs, hct, State.withCmd_ctxs, State.withCmd_ctxs, h.ctxs]
  · rw [hrsps, hrspt, State.withCmd_rsp, State.withCmd_rsp, h.rsp, List.append_assoc]

theorem Ahead.waiting {taken : List Byte} {s t : State} (h : Ahead taken [] s t) : t.waiting = s.waiting := by
  rw [State.waiting, State.waiting, h.cmd, List.append_nil]

theorem Ahead.advances {taken : List Byte} {s t : State} (h : Ahead taken [] s t) (n : Nat) :
    Ahead taken [] (s.advances n) (t.advances n) := by
  induction n generalizing s t with
  | zero => exact h
  | succ n ih =>
    cases hs : s.waiting with
    | false => exact ih (h.advance hs)
    | true => rwa [State.advances_of_waiting hs, State.advances_of_waiting (h.waiting.trans hs)]

/-- Executed to the end, the two differ in the bytes taken and in nothing else. -/
theorem Ahead.settle {taken : List Byte} {s t : State} (h : Ahead taken [] s t) :
    Ahead taken [] s.settle t.settle := by
  rw [State.settle, State.settle, h.cmd, List.append_nil]
  exact h.advances _

theorem Ahead.trans {taken₁ taken₂ : List Byte} {s t u : State} (h₁ : Ahead taken₁ [] s t) (h₂ : Ahead taken₂ [] t u) :
    Ahead (taken₂ ++ taken₁) [] s u :=
  ⟨h₂.ctxs.trans h₁.ctxs, by rw [h₂.rsp, h₁.rsp, List.append_assoc], by rw [h₂.cmd, h₁.cmd, List.append_nil]⟩

theorem Ahead.refl (s : State) : Ahead [] [] s s := ⟨rfl, rfl, (List.append_nil _).symm⟩

/-! ### The clock cycle against executing at once (R59) -/

/-- Executing a frame before more bytes come is executing it after. -/
theorem State.settle_feed_advance (s : State) (bs : List Byte) :
    Ahead [] [] (s.advance.feed bs).settle (s.feed bs).settle := by
  cases hs : s.waiting with
  | true =>
    rw [State.advance_of_waiting hs]
    exact .refl _
  | false =>
    have hfeed : Ahead [] bs s (s.feed bs) := ⟨rfl, rfl, rfl⟩
    obtain ⟨hctxs, hrsp, hcmd⟩ := hfeed.advance hs
    have hlate : Ahead [] [] (s.advance.feed bs) (s.feed bs).advance :=
      ⟨hctxs, hrsp, by rw [hcmd, State.feed_cmd, List.append_nil]⟩
    rw [← (s.feed bs).settle_advance]
    exact hlate.settle

theorem State.settle_feed_work (s : State) (n : Nat) (bs : List Byte) :
    Ahead [] [] ((s.work n).feed bs).settle (s.feed bs).settle :=
  State.work_induction (P := fun t => Ahead [] [] (t.feed bs).settle (s.feed bs).settle)
    (fun t ht _ => (t.settle_feed_advance bs).trans ht) n s (.refl _)

/-- The response byte that moves is the first of those pending. -/
theorem State.Inv.rspMoved_append_drop {s : State} (h : s.Inv) (i : PinsIn) (p : Pace) :
    s.rspMoved i p ++ s.rsp.drop (s.rspMoved i p).length = s.rsp := by
  obtain ⟨-, -, -, hvalid⟩ := h
  obtain ⟨-, hv, -, hmoved⟩ | ⟨-, hmoved⟩ := s.rspMoved_cases i p
  · obtain ⟨b, more, hrsp⟩ := List.exists_cons_of_ne_nil (hvalid hv)
    rw [hmoved, hrsp]
    rfl
  · rw [hmoved]
    rfl

/-- One cycle, and then bytes sent at once: all of it sent at once, but for the response byte taken. -/
theorem State.Inv.settle_feed_clock {s : State} (h : s.Inv) {i : PinsIn} (p : Pace) (hrst : i.rst = false)
    (bs : List Byte) :
    Ahead (s.rspMoved i p) [] ((s.clock i p).feed bs).settle (s.feed (s.cmdMoved i p ++ bs)).settle := by
  rw [s.clock_run i p hrst]
  have hmove : Ahead (s.rspMoved i p) [] ((s.moveBytes i p).feed bs) (s.feed (s.cmdMoved i p ++ bs)) :=
    ⟨rfl, (h.rspMoved_append_drop i p).symm, by simp⟩
  have hoffer : Ahead [] [] ((((s.moveBytes i p).work p.executions).offerNext p).feed bs)
      (((s.moveBytes i p).work p.executions).feed bs) := ⟨rfl, rfl, by simp⟩
  have hwork := (s.moveBytes i p).settle_feed_work p.executions bs
  simpa using (hoffer.settle.trans hwork).trans hmove.settle

theorem State.Inv.settle_runCycles {s : State} (h : s.Inv) {cycles : List (PinsIn × Pace)}
    (hrst : ∀ x ∈ cycles, x.1.rst = false) :
    Ahead (s.runCycles cycles).received [] (s.runCycles cycles).state.settle
      (s.feed (s.runCycles cycles).sent).settle := by
  induction cycles generalizing s with
  | nil =>
    have hnil : Ahead [] [] s (s.feed []) := ⟨rfl, rfl, rfl⟩
    exact hnil.settle
  | cons x more ih =>
    obtain ⟨i, p⟩ := x
    obtain ⟨hi, hmore⟩ := List.forall_mem_cons.mp hrst
    exact (ih (h.clock i p) hmore).trans (h.settle_feed_clock p hi _)

/-- Settles O56: the bytes taken and the settled end of the cycles are the settled end of sending at once. -/
theorem portScheduleCannotBeObserved : Obligations.PortScheduleCannotBeObserved := by
  unfold Obligations.PortScheduleCannotBeObserved
  intro s cycles h hrst
  obtain ⟨hctxs, hrsp, hcmd⟩ := h.settle_runCycles hrst
  exact ⟨hrsp.symm, hctxs.symm, by rw [hcmd, List.append_nil]⟩

end Sys2Proof.Machine

/-! Proofs about the ports: what moves and what is held in a cycle, and back-pressure (30_encoding.md R86,
70_reset_and_hazards.md R215, R216). -/

namespace Sys2Proof.Machine

/-! ### What moves and what is held (R86) -/

theorem State.cmdMoved_cases (s : State) (i : PinsIn) (p : Pace) :
    (i.rst = false ∧ i.cmdValid = true ∧ p.ready = true ∧ s.canAccept = true ∧ s.cmdMoved i p = [i.cmdData]) ∨
    (¬ (i.rst = false ∧ i.cmdValid = true ∧ p.ready = true ∧ s.canAccept = true) ∧ s.cmdMoved i p = []) := by
  by_cases h : i.rst = false ∧ i.cmdValid = true ∧ p.ready = true ∧ s.canAccept = true
  · obtain ⟨hrst, hvalid, hready, haccept⟩ := h
    exact .inl ⟨hrst, hvalid, hready, haccept,
      by simp [State.cmdMoved, State.pinsOut, hrst, hvalid, hready, haccept]⟩
  · exact .inr ⟨h, if_neg fun hmove => h (by simpa [State.pinsOut, and_assoc, and_comm, and_left_comm] using hmove)⟩

@[simp] theorem State.work_rspValid (s : State) (n : Nat) : (s.work n).rspValid = s.rspValid :=
  State.work_induction (P := fun t => t.rspValid = s.rspValid) (fun t ht _ => t.advance_rspValid.trans ht) n s rfl

theorem State.rsp_prefix_work (s : State) (n : Nat) : s.rsp <+: (s.work n).rsp :=
  State.work_induction (P := fun t => s.rsp <+: t.rsp) (fun t ht _ => ht.trans t.rsp_prefix_advance) n s
    (List.prefix_refl _)

theorem State.clock_rspValid (s : State) {i : PinsIn} (p : Pace) (hrst : i.rst = false) :
    (s.clock i p).rspValid =
      (s.rspValid && (s.rspMoved i p).isEmpty || (p.offer && !(s.clock i p).rsp.isEmpty)) := by
  rw [s.clock_run i p hrst, State.offerNext_rspValid, State.work_rspValid, State.moveBytes_rspValid,
    State.offerNext_rsp]

theorem State.clock_rspValid_of_offer {s : State} {i : PinsIn} {p : Pace} (hrst : i.rst = false)
    (hoffer : p.offer = true) (hrsp : (s.clock i p).rsp ≠ []) : (s.clock i p).rspValid = true := by
  rw [s.clock_rspValid p hrst, hoffer, List.isEmpty_eq_false_iff.mpr hrsp]
  exact Bool.or_true _

/-- What is pending and not taken stays in front. -/
theorem State.rsp_prefix_clock (s : State) {i : PinsIn} (p : Pace) (hrst : i.rst = false) :
    s.rsp.drop (s.rspMoved i p).length <+: (s.clock i p).rsp := by
  rw [s.clock_run i p hrst]
  exact (s.moveBytes i p).rsp_prefix_work _

theorem State.pinsOut_rspData {s : State} {i : PinsIn} (p : Pace) (hrst : i.rst = false) (hv : s.rspValid = true) :
    (s.pinsOut i p).rspData = s.rsp.headD p.idleData := by
  simp [State.pinsOut, hrst, hv]

theorem State.pinsOut_rspValid (s : State) {i : PinsIn} (p : Pace) (hrst : i.rst = false) :
    (s.pinsOut i p).rspValid = s.rspValid := by
  simp [State.pinsOut, hrst]

/-- A byte offered and not taken is offered in the next cycle. -/
theorem State.Inv.clock_holds {s : State} (h : s.Inv) {i i' : PinsIn} (p p' : Pace) (hrst : i.rst = false)
    (hv : s.rspValid = true) (hready : i.rspReady = false) (hrst' : i'.rst = false) :
    ((s.clock i p).pinsOut i' p').rspValid = true ∧
    ((s.clock i p).pinsOut i' p').rspData = (s.pinsOut i p).rspData := by
  obtain ⟨-, -, -, hpending⟩ := h
  have hmoved : s.rspMoved i p = [] := by simp [State.rspMoved, hready]
  have hv' : (s.clock i p).rspValid = true := by simp [s.clock_rspValid p hrst, hv, hmoved]
  refine ⟨((s.clock i p).pinsOut_rspValid p' hrst').trans hv', ?_⟩
  have hprefix := s.rsp_prefix_clock p hrst
  rw [hmoved] at hprefix
  obtain ⟨b, more, hrsp⟩ := List.exists_cons_of_ne_nil (hpending hv)
  obtain ⟨back, hback⟩ := hprefix
  rw [State.pinsOut_rspData p' hrst' hv', State.pinsOut_rspData p hrst hv, ← hback, hrsp]
  rfl

/-! ### The earliest answer (R216, log entry 6) -/

theorem State.canAccept_of_waiting {s : State} (h : s.waiting = true) : s.canAccept = true := by
  rw [State.canAccept, h, Bool.true_or]

theorem State.canEmit_of_rsp_nil {s : State} (h : s.rsp = []) : s.canEmit = true := by
  simp [State.canEmit, h]

theorem Response.length_encode (r : Response) : r.encode.length = 4 + r.payload.length := by
  simp [Response.encode]

/-- The engine takes a byte, executes what is whole, and offers the response or not. -/
def answerPace (offer : Bool) : Pace := { ready := true, executions := 1, offer := offer, idleData := 0x00#8 }

section
variable {s : State} {i : PinsIn} (hrst : i.rst = false)
include hrst

theorem State.cmdMoved_answerPace (hwait : s.waiting = true) (hvalid : i.cmdValid = true) (offer : Bool) :
    s.cmdMoved i (answerPace offer) = [i.cmdData] := by
  obtain ⟨-, -, -, -, hmoved⟩ | ⟨hno, -⟩ := s.cmdMoved_cases i (answerPace offer)
  · exact hmoved
  · exact absurd ⟨hrst, hvalid, rfl, State.canAccept_of_waiting hwait⟩ hno

/-- The byte that completes a frame moves, and the response stands at the end of the same cycle. -/
theorem State.rsp_clock_answerPace (hrsp : s.rsp = []) (hwait : s.waiting = true) (hvalid : i.cmdValid = true)
    (hframe : nextCommand (s.cmd ++ [i.cmdData]) ≠ .waiting) (offer : Bool) :
    (s.clock i (answerPace offer)).rsp ≠ [] := by
  set t := s.moveBytes i (answerPace offer) with ht
  have hcmd : t.cmd = s.cmd ++ [i.cmdData] := by
    rw [ht, State.moveBytes_cmd, State.cmdMoved_answerPace hrst hwait hvalid]
  have hempty : t.rsp = [] := by rw [ht, State.moveBytes_rsp, hrsp, List.drop_nil]
  have hone : t.work 1 = t.advance := if_pos (State.canEmit_of_rsp_nil hempty)
  rw [s.clock_run _ _ hrst, State.offerNext_rsp, ← ht]
  show (t.work 1).rsp ≠ []
  rw [hone]
  obtain ⟨hno, -⟩ | ⟨f, rest, htake, -⟩ := t.advance_cases
  · exact absurd (t.waiting_eq_true_iff.mp hno) (hcmd ▸ hframe)
  · obtain ⟨-, -, -, r, hr, -⟩ := State.advance_of_frame htake
    rw [hr, hempty, List.nil_append]
    exact List.ne_nil_of_length_pos (by rw [r.length_encode]; omega)

end

/-- Settles O55: the moves are their definitions, an offered byte stays in front, and `answerPace` answers at once or
not. -/
theorem handshakeMovesAndHolds : Obligations.HandshakeMovesAndHolds := by
  unfold Obligations.HandshakeMovesAndHolds
  intro s i p h
  refine ⟨by simp [State.cmdMoved, and_assoc], by simp [State.rspMoved, and_assoc],
    fun hrst hv hready i' p' hrst' => ?_, fun hrst hrsp hwait hvalid hframe => ?_⟩
  · rw [s.pinsOut_rspValid p hrst] at hv
    exact h.clock_holds p p' hrst hv hready hrst'
  · have hidle : s.rspValid = false := by
      obtain ⟨-, -, -, hpending⟩ := h
      exact Bool.eq_false_iff.mpr fun hv => hpending hv hrsp
    refine ⟨answerPace true, answerPace false, State.cmdMoved_answerPace hrst hwait hvalid true,
      State.cmdMoved_answerPace hrst hwait hvalid false, fun i' p' hrst' => ⟨?_, ?_⟩⟩
    · have hanswer := State.rsp_clock_answerPace hrst hrsp hwait hvalid hframe true
      rw [State.pinsOut_rspValid _ p' hrst']
      exact State.clock_rspValid_of_offer hrst rfl hanswer
    · rw [State.pinsOut_rspValid _ p' hrst', s.clock_rspValid _ hrst]
      simp [answerPace, hidle]

/-! ### Response bytes stay bounded (R215 item 3) -/

theorem Response.Listed.length_le {r : Response} (h : r.Listed) : r.encode.length ≤ 93 := by
  have hpayload : r.payload.length ≤ 89 := by
    unfold Response.Listed possibleResponse at h
    omega
  rw [r.length_encode]
  omega

/-- The longest response is that of EXPORT: 4 header bytes and 89. -/
theorem State.Inv.length_rsp_advance {s : State} (h : s.Inv) : s.advance.rsp.length ≤ s.rsp.length + 93 := by
  obtain ⟨-, -, hbuf, -⟩ := h
  obtain hwait | ⟨t, r, ht, hrsp, hlisted⟩ := step_waits_or_answersListed hbuf
  · rw [State.advance_of_step hwait]
    omega
  · rw [State.advance_of_step ht, hrsp, List.length_append]
    exact Nat.add_le_add_left hlisted.length_le _

theorem State.canEmit_iff (s : State) : s.canEmit = true ↔ s.rsp.length ≤ rspQueueDepth := by
  simp [State.canEmit]

theorem State.Inv.length_rsp_work {s : State} (h : s.Inv) (hlen : s.rsp.length ≤ rspQueueDepth + 93) (n : Nat) :
    (s.work n).rsp.length ≤ rspQueueDepth + 93 := by
  refine (State.work_induction (P := fun t => t.Inv ∧ t.rsp.length ≤ rspQueueDepth + 93) (fun t ht hemit => ?_) n s
    ⟨h, hlen⟩).2
  have hadd := ht.1.length_rsp_advance
  have hroom := t.canEmit_iff.mp hemit
  exact ⟨ht.1.advance, by omega⟩

theorem State.Inv.length_rsp_clock {s : State} (h : s.Inv) (hlen : s.rsp.length ≤ rspQueueDepth + 93) (i : PinsIn)
    (p : Pace) : (s.clock i p).rsp.length ≤ rspQueueDepth + 93 := by
  cases hrst : i.rst with
  | true =>
    rw [s.clock_reset i p hrst]
    exact Nat.zero_le _
  | false =>
    rw [s.clock_run i p hrst, State.offerNext_rsp]
    refine (h.moveBytes i p).length_rsp_work ?_ _
    rw [State.moveBytes_rsp, List.length_drop]
    omega

/-! ### A host that only sends (R215 item 3) -/

/-- Response room that is left, in command bytes: a frame is at most 65539 bytes, and its response fills some room. -/
def State.credit (s : State) : Nat := 65539 * (rspQueueDepth + 1 - s.rsp.length)

/-- Each frame executed costs at least its bytes of credit. -/
theorem State.credit_advance {s : State} (hemit : s.canEmit = true) :
    s.cmd.length + s.advance.credit ≤ s.advance.cmd.length + s.credit := by
  obtain ⟨-, hadv⟩ | ⟨f, rest, htake, -⟩ := s.advance_cases
  · rw [hadv]
  · obtain ⟨-, hrest, -, r, hrsp, -⟩ := State.advance_of_frame htake
    have hroom := s.canEmit_iff.mp hemit
    have hframe := State.cmd_length_of_frame htake
    have hlen := headerLen_lt f.header
    have hresponse := r.length_encode
    rw [State.credit, State.credit, hrest, hrsp, List.length_append]
    omega

theorem State.credit_work (s : State) (n : Nat) :
    s.cmd.length + (s.work n).credit ≤ (s.work n).cmd.length + s.credit :=
  State.work_induction (P := fun t => s.cmd.length + t.credit ≤ t.cmd.length + s.credit)
    (fun t ht hemit => by have := State.credit_advance hemit; omega) n s le_rfl

theorem State.cmd_length_advance_le (s : State) : s.advance.cmd.length ≤ s.cmd.length := by
  obtain ⟨-, hadv⟩ | ⟨f, rest, htake, -⟩ := s.advance_cases
  · rw [hadv]
  · obtain ⟨-, hrest, -⟩ := State.advance_of_frame htake
    have hframe := State.cmd_length_of_frame htake
    rw [hrest]
    omega

theorem State.cmd_length_work_le (s : State) (n : Nat) : (s.work n).cmd.length ≤ s.cmd.length :=
  State.work_induction (P := fun t => t.cmd.length ≤ s.cmd.length)
    (fun t ht _ => t.cmd_length_advance_le.trans ht) n s le_rfl

/-- An incomplete frame is shorter than the longest frame. -/
theorem State.cmd_length_of_waiting {s : State} (h : s.waiting = true) : s.cmd.length < 65539 := by
  by_contra hlong
  have hnone := s.waiting_iff_takeFrame.mp h
  rw [eq_header_append s.cmd (by omega), takeFrame_header, if_neg] at hnone
  · cases hnone
  · have hlen := headerLen_lt (unle 32 (s.cmd.take 4))
    rw [List.length_drop]
    omega

/-- How many bytes the command stream of `s` can come to hold. -/
def State.cmdRoom (s : State) : Nat := max s.cmd.length (max cmdQueueDepth 65539)

theorem State.cmd_length_moveBytes_le (s : State) (i : PinsIn) (p : Pace) :
    (s.moveBytes i p).cmd.length ≤ s.cmdRoom := by
  rw [State.moveBytes_cmd, List.length_append, State.cmdRoom]
  obtain ⟨-, -, -, haccept, hmoved⟩ | ⟨-, hmoved⟩ := s.cmdMoved_cases i p
  · rw [hmoved, List.length_singleton]
    obtain hwait | hroom := Bool.or_eq_true_iff.mp haccept
    · have := State.cmd_length_of_waiting hwait
      omega
    · have := of_decide_eq_true hroom
      omega
  · rw [hmoved, List.length_nil]
    omega

section
variable (s : State) {i : PinsIn} (p : Pace) (hrst : i.rst = false)
include hrst

theorem State.cmdRoom_clock_le : (s.clock i p).cmdRoom ≤ s.cmdRoom := by
  have hle := s.cmd_length_moveBytes_le i p
  have hwork := (s.moveBytes i p).cmd_length_work_le p.executions
  rw [s.clock_run i p hrst, State.cmdRoom, State.offerNext_cmd]
  unfold State.cmdRoom at hle ⊢
  omega

theorem State.credit_clock (hready : i.rspReady = false) :
    (s.cmdMoved i p).length + s.cmd.length + (s.clock i p).credit ≤ (s.clock i p).cmd.length + s.credit := by
  have hmoved : s.rspMoved i p = [] := by simp [State.rspMoved, hready]
  have hcredit : (s.moveBytes i p).credit = s.credit := by
    rw [State.credit, State.moveBytes_rsp, hmoved]
    rfl
  have hwork := (s.moveBytes i p).credit_work p.executions
  rw [State.moveBytes_cmd, List.length_append, hcredit] at hwork
  rw [s.clock_run i p hrst, State.offerNext_cmd]
  show _ + ((s.moveBytes i p).work p.executions).credit ≤ _
  omega

end

/-- While the host takes nothing, what is sent stays on the command stream or costs credit. -/
theorem State.sent_runCycles_le (s : State) {cycles : List (PinsIn × Pace)}
    (h : ∀ x ∈ cycles, x.1.rst = false ∧ x.1.rspReady = false) :
    (s.runCycles cycles).sent.length + s.cmd.length ≤ s.cmdRoom + s.credit := by
  induction cycles generalizing s with
  | nil =>
    show 0 + s.cmd.length ≤ _
    rw [State.cmdRoom]
    omega
  | cons x more ih =>
    obtain ⟨i, p⟩ := x
    obtain ⟨hx, hmore⟩ := List.forall_mem_cons.mp h
    obtain ⟨hrst, hready⟩ : i.rst = false ∧ i.rspReady = false := hx
    have hrest := ih (s.clock i p) hmore
    have hroom := s.cmdRoom_clock_le p hrst
    have hcredit := s.credit_clock p hrst hready
    show (s.cmdMoved i p ++ ((s.clock i p).runCycles more).sent).length + _ ≤ _
    rw [List.length_append]
    omega

/-- Settles O57: a full queue has no room, 93 bytes is the longest response, and the bytes sent are bounded by the room
and the credit at the start. -/
theorem backPressureStallsTheSender : Obligations.BackPressureStallsTheSender := by
  unfold Obligations.BackPressureStallsTheSender
  refine ⟨fun s i p _ hwait hfull => ?_, fun s i p h hlen => h.length_rsp_clock hlen i p,
    fun s => ⟨s.cmdRoom + s.credit, fun cycles h => ?_⟩⟩
  · have haccept : s.canAccept = false := by
      rw [State.canAccept, hwait, Bool.false_or]
      exact decide_eq_false (Nat.not_lt.mpr hfull)
    simp [State.pinsOut, haccept]
  · exact (Nat.le_add_right _ _).trans (s.sent_runCycles_le h)

end Sys2Proof.Machine

/-! Proofs about progress: with a fair engine and host every schedule comes to rest, and at rest everything is sent,
executed and taken (70_reset_and_hazards.md R217). -/

namespace Sys2Proof.Machine

/-! ### A weight that every busy cycle lowers -/

/-- What there is left to do with the bytes inside the block. A frame is at least 4 command bytes and its response at
most 93 bytes, so 50 a command byte pays for 2 a response byte; a byte offered is one act nearer to being taken. -/
def State.weight (s : State) : Nat := 50 * s.cmd.length + 2 * s.rsp.length + (!s.rspValid).toNat

theorem State.Inv.weight_advance_lt {s : State} (h : s.Inv) (hs : s.waiting = false) : s.advance.weight < s.weight := by
  obtain ⟨hwait, -⟩ | ⟨f, rest, htake, -⟩ := s.advance_cases
  · rw [hwait] at hs
    cases hs
  · obtain ⟨-, hrest, -⟩ := State.advance_of_frame htake
    have hframe := State.cmd_length_of_frame htake
    have hrsp := h.length_rsp_advance
    rw [State.weight, State.weight, State.advance_rspValid, hrest]
    omega

/-- The engine's work changes nothing or lowers the weight. -/
theorem State.Inv.work_eq_or_weight_lt {s : State} (h : s.Inv) (n : Nat) :
    s.work n = s ∨ (s.work n).weight < s.weight := by
  refine (State.work_induction (P := fun t => t.Inv ∧ (t = s ∨ t.weight < s.weight)) (fun t ht _ => ?_) n s
    ⟨h, .inl rfl⟩).2
  refine ⟨ht.1.advance, ?_⟩
  cases hwait : t.waiting with
  | true => rw [State.advance_of_waiting hwait]; exact ht.2
  | false =>
    have hlt := ht.1.weight_advance_lt hwait
    obtain rfl | hless := ht.2
    · exact .inr hlt
    · exact .inr (hlt.trans hless)

theorem State.Inv.weight_work_le {s : State} (h : s.Inv) (n : Nat) : (s.work n).weight ≤ s.weight := by
  obtain heq | hlt := h.work_eq_or_weight_lt n
  · rw [heq]
  · exact hlt.le

theorem State.Inv.weight_work_lt {s : State} (h : s.Inv) (hwait : s.waiting = false) (hemit : s.canEmit = true)
    {n : Nat} (hn : 0 < n) : (s.work n).weight < s.weight := by
  obtain ⟨k, rfl⟩ := Nat.exists_eq_add_one.mpr hn
  rw [State.work, if_pos hemit]
  exact (h.advance.weight_work_le k).trans_lt (h.weight_advance_lt hwait)

theorem State.offerNext_eq_or_weight_lt (s : State) (p : Pace) :
    s.offerNext p = s ∨ (s.offerNext p).weight < s.weight := by
  cases hv : s.rspValid with
  | true => exact .inl (by rw [State.offerNext, hv, Bool.true_or, ← hv])
  | false =>
    cases hoffer : p.offer && !s.rsp.isEmpty with
    | false => exact .inl (by rw [State.offerNext, hv, hoffer, Bool.or_self, ← hv])
    | true => exact .inr (by simp [State.weight, hv, hoffer])

theorem State.weight_offerNext_le (s : State) (p : Pace) : (s.offerNext p).weight ≤ s.weight := by
  obtain heq | hlt := s.offerNext_eq_or_weight_lt p
  · rw [heq]
  · exact hlt.le

/-- A command byte that moves adds 50, a response byte that moves takes 1. -/
theorem State.Inv.weight_moveBytes {s : State} (h : s.Inv) (i : PinsIn) (p : Pace) :
    (s.moveBytes i p).weight + (s.rspMoved i p).length = s.weight + 50 * (s.cmdMoved i p).length := by
  obtain ⟨-, -, -, hpending⟩ := h
  simp only [State.weight, State.moveBytes_cmd, State.moveBytes_rsp, State.moveBytes_rspValid, List.length_append,
    List.length_drop]
  obtain ⟨-, hv, -, hmoved⟩ | ⟨-, hmoved⟩ := s.rspMoved_cases i p
  · have hpos := List.length_pos_of_ne_nil (hpending hv)
    simp only [hmoved, hv, List.length_singleton, List.isEmpty_cons, Bool.and_false, Bool.not_false, Bool.not_true,
      Bool.toNat_true, Bool.toNat_false]
    omega
  · simp only [hmoved, List.length_nil, List.isEmpty_nil, Bool.and_true]
    omega

/-! ### Quiet cycles -/

/-- A cycle in which no byte moves and the state stays. -/
structure Quiet (s : State) (i : PinsIn) (p : Pace) : Prop where
  clock : s.clock i p = s
  cmdMoved : s.cmdMoved i p = []
  rspMoved : s.rspMoved i p = []

theorem State.moveBytes_of_nil {s : State} {i : PinsIn} {p : Pace} (hc : s.cmdMoved i p = [])
    (hr : s.rspMoved i p = []) : s.moveBytes i p = s := by
  rw [State.moveBytes, hc, hr, List.append_nil, List.isEmpty_nil, Bool.and_true]
  rfl

/-- A cycle is quiet or lowers the weight, where a byte still to be sent weighs 51. -/
theorem State.Inv.quiet_or_weight_lt {s : State} (h : s.Inv) {i : PinsIn} (p : Pace) (hrst : i.rst = false) :
    Quiet s i p ∨ (s.clock i p).weight < s.weight + 51 * (s.cmdMoved i p).length := by
  have hmove := h.weight_moveBytes i p
  have hwork := (h.moveBytes i p).weight_work_le p.executions
  have hoffer := ((s.moveBytes i p).work p.executions).weight_offerNext_le p
  rw [← s.clock_run i p hrst] at hoffer
  by_cases hc : s.cmdMoved i p = []
  · by_cases hr : s.rspMoved i p = []
    · have hstay : s.moveBytes i p = s := State.moveBytes_of_nil hc hr
      rw [hstay] at hwork hoffer
      have hclock : s.clock i p = (s.work p.executions).offerNext p := by rw [s.clock_run i p hrst, hstay]
      obtain heq | hlt := h.work_eq_or_weight_lt p.executions
      · obtain heq' | hlt' := s.offerNext_eq_or_weight_lt p
        · exact .inl ⟨by rw [hclock, heq, heq'], hc, hr⟩
        · right
          rw [hclock, heq]
          omega
      · right
        omega
    · have := List.length_pos_of_ne_nil hr
      right
      omega
  · have := List.length_pos_of_ne_nil hc
    right
    omega

/-- A cycle in which a frame is executed is not quiet. -/
theorem Quiet.executions_eq_zero {s : State} {i : PinsIn} {p : Pace} (hq : Quiet s i p) (h : s.Inv)
    (hrst : i.rst = false) (hwait : s.waiting = false) (hemit : s.canEmit = true) : p.executions = 0 := by
  by_contra hne
  have hlt := h.weight_work_lt hwait hemit (Nat.pos_of_ne_zero hne)
  have hle := (s.work p.executions).weight_offerNext_le p
  have hclock := hq.clock
  rw [s.clock_run i p hrst, State.moveBytes_of_nil hq.cmdMoved hq.rspMoved] at hclock
  rw [hclock] at hle
  omega

/-- A cycle in which a pending byte is newly offered is not quiet. -/
theorem Quiet.offer_eq_false {s : State} {i : PinsIn} {p : Pace} (hq : Quiet s i p) (hrst : i.rst = false)
    (hrsp : s.rsp ≠ []) (hv : s.rspValid = false) : p.offer = false := by
  by_contra hoffer
  have hvalid := State.clock_rspValid_of_offer (s := s) hrst (Bool.not_eq_false _ ▸ hoffer) (hq.clock.symm ▸ hrsp)
  rw [hq.clock, hv] at hvalid
  cases hvalid

/-- A cycle in which an offered byte is taken is not quiet. -/
theorem Quiet.rspReady_eq_false {s : State} {i : PinsIn} {p : Pace} (hq : Quiet s i p) (hrst : i.rst = false)
    (hv : s.rspValid = true) : i.rspReady = false := by
  obtain ⟨-, -, -, hmoved⟩ | ⟨hno, -⟩ := s.rspMoved_cases i p
  · rw [hq.rspMoved] at hmoved
    cases hmoved
  · exact Bool.eq_false_iff.mpr fun hready => hno ⟨hrst, hv, hready⟩

/-- A cycle in which an offered command byte finds room is not quiet. -/
theorem Quiet.ready_eq_false {s : State} {i : PinsIn} {p : Pace} (hq : Quiet s i p) (hrst : i.rst = false)
    (hvalid : i.cmdValid = true) (haccept : s.canAccept = true) : p.ready = false := by
  obtain ⟨-, -, -, -, hmoved⟩ | ⟨hno, -⟩ := s.cmdMoved_cases i p
  · rw [hq.cmdMoved] at hmoved
    cases hmoved
  · exact Bool.eq_false_iff.mpr fun hready => hno ⟨hrst, hvalid, hready, haccept⟩

/-! ### A schedule comes to rest -/

theorem State.atCycle_succ (s : State) (run : Schedule) (n : Nat) :
    s.atCycle run (n + 1) = (s.atCycle run n).clock (run n).1 (run n).2 := by
  rw [State.atCycle, State.trace_succ]

theorem State.sent_succ (s : State) (run : Schedule) (n : Nat) :
    (s.trace run (n + 1)).sent = (s.trace run n).sent ++ (s.atCycle run n).cmdMoved (run n).1 (run n).2 := by
  rw [State.trace_succ]

theorem State.Inv.atCycle {s : State} (h : s.Inv) (run : Schedule) (n : Nat) : (s.atCycle run n).Inv := by
  induction n with
  | zero => exact h
  | succ n ih => rw [s.atCycle_succ]; exact ih.clock _ _

/-- Cycle n of the schedule is quiet. -/
def QuietAt (s : State) (run : Schedule) (n : Nat) : Prop := Quiet (s.atCycle run n) (run n).1 (run n).2

/-- What cannot fall for ever stops falling. -/
theorem eventually_of_descent {Q : Nat → Prop} {f : Nat → Nat}
    (h : ∀ n, (Q n ∧ f (n + 1) = f n) ∨ f (n + 1) < f n) : ∃ N, ∀ m, N ≤ m → Q m := by
  have hanti : Antitone f := antitone_nat_of_succ_le fun n => (h n).elim (fun hq => hq.2.le) fun hlt => hlt.le
  refine ⟨Function.argmin f, fun m hm => ?_⟩
  obtain ⟨hq, -⟩ | hlt := h m
  · exact hq
  · have hmin := Function.argmin_le f (m + 1)
    have hle := hanti hm
    omega

section
variable {s : State} {run : Schedule} {program : List Byte}

/-- Only bytes of the program move, in order. -/
theorem HostSends.sent_eq_take (h : HostSends s run program) (n : Nat) :
    (s.trace run n).sent = program.take (s.trace run n).sent.length := by
  obtain ⟨hdata, -, -⟩ := h
  induction n with
  | zero => rfl
  | succ n ih =>
    rw [s.sent_succ]
    obtain ⟨-, hvalid, -, -, hmoved⟩ | ⟨-, hmoved⟩ := (s.atCycle run n).cmdMoved_cases (run n).1 (run n).2
    · rw [hmoved, List.length_append, List.length_singleton, List.take_add_one, hdata n hvalid, ← ih]
      rfl
    · rw [hmoved, List.append_nil]
      exact ih

/-- What is left to do in the block and to send. -/
def workLeft (s : State) (run : Schedule) (program : List Byte) (n : Nat) : Nat :=
  (s.atCycle run n).weight + 51 * (program.length - (s.trace run n).sent.length)

theorem quietAt_or_workLeft_lt (hinv : s.Inv) (hsends : HostSends s run program) (hrst : NoReset run) (n : Nat) :
    (QuietAt s run n ∧ workLeft s run program (n + 1) = workLeft s run program n) ∨
      workLeft s run program (n + 1) < workLeft s run program n := by
  obtain ⟨hdata, -, -⟩ := hsends
  simp only [workLeft, s.atCycle_succ, s.sent_succ, List.length_append]
  obtain hq | hlt := (hinv.atCycle run n).quiet_or_weight_lt (run n).2 (hrst n)
  · exact .inl ⟨hq, by rw [hq.clock, hq.cmdMoved]; rfl⟩
  · right
    obtain ⟨-, hvalid, -, -, hmoved⟩ | ⟨-, hmoved⟩ := (s.atCycle run n).cmdMoved_cases (run n).1 (run n).2
    · obtain ⟨hbound, -⟩ := List.getElem?_eq_some_iff.mp (hdata n hvalid)
      rw [hmoved, List.length_singleton] at hlt ⊢
      omega
    · rw [hmoved, List.length_nil] at hlt ⊢
      omega

/-- From some cycle on nothing happens any more. -/
theorem exists_quiet (hinv : s.Inv) (hsends : HostSends s run program) (hrst : NoReset run) :
    ∃ N, ∀ m, N ≤ m → QuietAt s run m :=
  eventually_of_descent (quietAt_or_workLeft_lt hinv hsends hrst)

/-! ### At rest everything is done -/

variable {N : Nat} (hquiet : ∀ m, N ≤ m → QuietAt s run m)
include hquiet

theorem constant_of_quiet {m : Nat} (hm : N ≤ m) :
    s.atCycle run m = s.atCycle run N ∧ (s.trace run m).sent = (s.trace run N).sent := by
  induction m, hm using Nat.le_induction with
  | base => exact ⟨rfl, rfl⟩
  | succ m hm ih =>
    obtain ⟨hclock, hcmd, -⟩ := hquiet m hm
    rw [s.atCycle_succ, s.sent_succ, hclock, hcmd, List.append_nil]
    exact ih

/-- A byte pending for ever would at some cycle be offered, and then at some cycle be taken. -/
theorem rsp_eq_nil_of_quiet (hoffers : EngineOffers s run) (htakes : HostTakes s run) (hrst : NoReset run) :
    (s.atCycle run N).rsp = [] := by
  by_contra hrsp
  cases hv : (s.atCycle run N).rspValid with
  | false =>
    obtain ⟨m, hm, hoffer⟩ := hoffers N
    have hq := hquiet m hm
    rw [QuietAt, (constant_of_quiet hquiet hm).1] at hq
    rw [(constant_of_quiet hquiet hm).1] at hoffer
    have hno := hq.offer_eq_false (hrst m) hrsp hv
    rw [hoffer hrsp hv] at hno
    cases hno
  | true =>
    obtain ⟨m, hm, hready⟩ := htakes N
    have hq := hquiet m hm
    rw [QuietAt, (constant_of_quiet hquiet hm).1] at hq
    rw [(constant_of_quiet hquiet hm).1] at hready
    have hno := hq.rspReady_eq_false (hrst m) hv
    rw [hready hv] at hno
    cases hno

/-- With no response pending there is room for one, and a whole frame would at some cycle be executed. -/
theorem waiting_of_quiet (hinv : s.Inv) (hexecutes : EngineExecutes s run) (hrst : NoReset run)
    (hrsp : (s.atCycle run N).rsp = []) : (s.atCycle run N).waiting = true := by
  by_contra hbusy
  have hwait : (s.atCycle run N).waiting = false := Bool.eq_false_iff.mpr hbusy
  have hemit := State.canEmit_of_rsp_nil hrsp
  obtain ⟨m, hm, hexec⟩ := hexecutes N
  have hq := hquiet m hm
  rw [QuietAt, (constant_of_quiet hquiet hm).1] at hq
  rw [(constant_of_quiet hquiet hm).1] at hexec
  have hpos := hexec hwait hemit
  rw [hq.executions_eq_zero (hinv.atCycle run N) (hrst m) hwait hemit] at hpos
  exact absurd hpos (Nat.lt_irrefl 0)

/-- The host holds an offered byte, and a waiting engine has room for it, so that it would at some cycle move. -/
theorem sent_eq_of_quiet (haccepts : EngineAccepts s run) (hsends : HostSends s run program) (hrst : NoReset run)
    (hwait : (s.atCycle run N).waiting = true) : (s.trace run N).sent = program := by
  rw [hsends.sent_eq_take N]
  obtain ⟨-, hholds, hoffers⟩ := hsends
  refine List.take_of_length_le (not_lt.mp fun hleft => ?_)
  obtain ⟨k, hk, hvalid⟩ := hoffers N hleft
  have hheld (m : Nat) (hm : k ≤ m) : (run m).1.cmdValid = true := by
    induction m, hm using Nat.le_induction with
    | base => exact hvalid
    | succ m hm ih => exact hholds m ih (hquiet m (hk.trans hm)).cmdMoved
  obtain ⟨m, hm, hready⟩ := haccepts k
  have hNm := hk.trans hm
  have hq := hquiet m hNm
  rw [QuietAt, (constant_of_quiet hquiet hNm).1] at hq
  rw [(constant_of_quiet hquiet hNm).1] at hready
  have haccept := State.canAccept_of_waiting hwait
  have hno := hq.ready_eq_false (hrst m) (hheld m hm) haccept
  rw [hready (hheld m hm) haccept] at hno
  cases hno

end

/-- Settles O58: the schedule comes to rest; at rest the program is sent, no response is pending and the engine waits,
so that the state is its own settled end, which the schedule has not changed. -/
theorem fairRunsEndWithEveryResponseTaken : Obligations.FairRunsEndWithEveryResponseTaken := by
  unfold Obligations.FairRunsEndWithEveryResponseTaken
  intro s run program hinv hfair hsends htakes hrst
  obtain ⟨haccepts, hexecutes, hoffers⟩ := hfair
  obtain ⟨N, hquiet⟩ := exists_quiet hinv hsends hrst
  refine ⟨N, fun m hm => ?_⟩
  have hlater : ∀ k, m ≤ k → QuietAt s run k := fun k hk => hquiet k (hm.trans hk)
  have hrsp := rsp_eq_nil_of_quiet hlater hoffers htakes hrst
  have hwait := waiting_of_quiet hlater hinv hexecutes hrst hrsp
  have hsent := sent_eq_of_quiet hlater haccepts hsends hrst hwait
  have hcycles : ∀ x ∈ (List.range m).map run, x.1.rst = false := by
    intro x hx
    obtain ⟨k, -, rfl⟩ := List.mem_map.mp hx
    exact hrst k
  obtain ⟨hctxs, hreceived, hcmd⟩ : Ahead (s.trace run m).received [] (s.atCycle run m).settle
      (s.feed (s.trace run m).sent).settle := hinv.settle_runCycles hcycles
  rw [State.settle_of_waiting hwait, hsent] at hctxs hreceived hcmd
  rw [hrsp, List.append_nil] at hreceived
  rw [List.append_nil] at hcmd
  exact ⟨hsent, hreceived.symm, hctxs.symm, hcmd.symm, hrsp⟩

end Sys2Proof.Machine
